-- ==== Sys2Proof/Word.lean ====
section
/-! DEFINITION. The register word, the memory cell and the list form of a memory. -/

namespace Sys2Proof

/-- A register value: `XLEN` = 32 bits, unsigned (00_scope.md R8, 10_state.md R21). The same type carries
a memory word of `W` ≤ 32 bits, whose bits at and above `W` are then zero (notes/assumptions/3.md). -/
abbrev Word := BitVec 32

/-- One listed location of a memory: its index inside its space and the word it holds
(20_memory.md R52 to R54). -/
abbrev Cell := Nat × Word

/-- A memory as the list of its cells (see `Memory.wf` for the one form it has). -/
abbrev Memory := List Cell

end Sys2Proof
end

