-- ==== Sys2Proof/Config.lean ====
section
/-! DEFINITION. The parameters of one instance (00_scope.md R8) and the one free value of the model. -/

namespace Sys2Proof

/-- The implementation parameters of 00_scope.md R8; `XLEN` is fixed by `Word`. -/
structure Params where
  /-- `W`, the width of a memory word in bits. -/
  W : Nat
  /-- `S_MAX`, the largest pivot count; the table has `2^S_MAX` rows. -/
  sMax : Nat
  /-- `WDS_MAX`, the physical words of a row. -/
  wdsMax : Nat
  /-- `M_MAX`, the physical rows of the matrix. -/
  mMax : Nat
  deriving DecidableEq, Repr

/-- The constraints of 00_scope.md R8 on the parameters of an instance. -/
abbrev Params.Legal (p : Params) : Prop :=
  (1 ≤ p.W ∧ p.W ≤ 32) ∧ (1 ≤ p.sMax ∧ p.sMax ≤ min p.W 16) ∧
    (1 ≤ p.wdsMax ∧ p.wdsMax ≤ 65535) ∧ (1 ≤ p.mMax ∧ p.mMax ≤ 65535)

/-- The reference configuration, the last column of the table of 00_scope.md R8. -/
def Params.reference : Params := { W := 8, sMax := 8, wdsMax := 16, mMax := 128 }

/-- Words of the matrix memory `M` (20_memory.md R50). -/
abbrev Params.sizeM (p : Params) : Nat := p.mMax * p.wdsMax

/-- Words of the table memory `Z` (20_memory.md R50). -/
abbrev Params.sizeZ (p : Params) : Nat := 2 ^ p.sMax * p.wdsMax

/-- Entries of the membership array `z` (20_memory.md R50). -/
abbrev Params.sizeZI (p : Params) : Nat := 2 ^ p.sMax

/-- FREE VALUE (notes/assumptions/6.md): `extract` outside its preconditions "has no value"
(40_extract.md R98). No command evaluates it there; nothing can be proved of this number. -/
opaque Config.fieldOutside (offset length : Nat) : Nat

end Sys2Proof
end

