-- ==== Sys2Proof/Syntax.lean ====
section
/-! DEFINITION. The five commands (30_encoding.md R71) and the host operations that drive the block
(45_host_access.md R155). -/

namespace Sys2Proof

/-- The commands, one constructor per row of spec/opcode_table.json. A command word carries no operand:
operands are taken from the operand registers (30_encoding.md R70, R74). -/
inductive Instr where
  /-- `EXTRACT`, command word 0x00000001 (40_extract.md R90). -/
  | extract
  /-- `XORROW`, command word 0x00000002 (41_xorinto.md R100). -/
  | xorrow
  /-- `BUILD`, command word 0x00000003 (42_buildtable.md R110). -/
  | build
  /-- `ELIM`, command word 0x00000004 (43_eliminate.md R130). -/
  | elim
  /-- `PASS`, command word 0x00000005 (44_pass.md R145). -/
  | pass
  deriving DecidableEq, Repr

/-- The memory spaces the host can name beside `REG` (20_memory.md R50). -/
inductive Space where
  /-- The matrix memory. -/
  | M
  /-- The table memory. -/
  | Z
  /-- The membership array. -/
  | ZI
  deriving DecidableEq, Repr

/-- What the three memories hold after a reset: unspecified by the spec (10_state.md R43), so a reset
operation carries it (notes/assumptions/8.md). -/
structure Contents where
  /-- The contents of the matrix memory. -/
  M : Memory
  /-- The contents of the table memory. -/
  Z : Memory
  /-- The contents of the membership array. -/
  zi : Memory
  deriving DecidableEq, Repr

/-- The host operations (45_host_access.md R155), one constructor per operation. -/
inductive HostOp where
  /-- `RegRead(off)` (R156). -/
  | regRead (off : Nat)
  /-- `RegWrite(off, v)` (R157); with `off` the offset of `CMD` it executes a command (R158). -/
  | regWrite (off : Nat) (v : Word)
  /-- `HostRead(space, idx)` (R159, R161). -/
  | hostRead (space : Space) (idx : Nat)
  /-- `HostWrite(space, idx, v)`; only the space `M` has this operation (R160, R162). -/
  | hostWrite (space : Space) (idx : Nat) (v : Word)
  /-- `Reset` (70_reset_and_hazards.md R200), with the contents it leaves in the memories. -/
  | reset (contents : Contents)
  deriving DecidableEq, Repr

end Sys2Proof
end

