-- ==== Sys2Proof/Machine/Memory.lean ====
section
/-! DEFINITION. A memory as a list of cells: what an unlisted location reads as, reading and writing one
location, and the one canonical form; the sizes of the address spaces (20_memory.md R50, R58). -/

namespace Sys2Proof

/-- What a location that the list does not name reads as. The spec leaves the contents after reset
unspecified (10_state.md R43). DESIGN CHOICE, unsafe: 0 (notes/assumptions/2.md). -/
def Memory.unlisted : Word := 0

/-- A read returns the last value written and changes nothing (20_memory.md R58). -/
def Memory.read (m : Memory) (a : Nat) : Word :=
  match m with
  | [] => Memory.unlisted
  | (b, v) :: rest => if a = b then v else Memory.read rest a

/-- The list without the location `a`, which then reads as an unlisted one. -/
def Memory.erase (m : Memory) (a : Nat) : Memory :=
  match m with
  | [] => []
  | (b, v) :: rest => if a = b then Memory.erase rest a else (b, v) :: Memory.erase rest a

/-- The list with the location `a` holding `v`, at the place that keeps the indices rising. -/
def Memory.insert (m : Memory) (a : Nat) (v : Word) : Memory :=
  match m with
  | [] => [(a, v)]
  | (b, u) :: rest =>
    if a < b then (a, v) :: (b, u) :: rest
    else if a = b then (a, v) :: rest
    else (b, u) :: Memory.insert rest a v

/-- A write of one whole location (20_memory.md R58). Writing what an unlisted location reads as removes the
entry, so that equal memories are equal lists. -/
def Memory.write (m : Memory) (a : Nat) (v : Word) : Memory :=
  if v = Memory.unlisted then Memory.erase m a else Memory.insert m a v

/-- `Memory.wf` for the part of a list whose indices start at `lo`. -/
def Memory.wfFrom (lo size width : Nat) (m : Memory) : Bool :=
  match m with
  | [] => true
  | (a, v) :: rest =>
    decide (lo ≤ a) && decide (a < size) && decide (v ≠ Memory.unlisted) &&
      decide (v.toNat < 2 ^ width) && Memory.wfFrom (a + 1) size width rest

/-- The canonical form of a memory of `size` locations of `width` bits: indices strictly rising and inside
the memory, no entry equal to what an unlisted location reads as, every value of the location's width. -/
def Memory.wf (size width : Nat) (m : Memory) : Bool := Memory.wfFrom 0 size width m

/-- The offsets of the space `REG`: multiples of 4 from 0x00 to 0xFC (20_memory.md R50, R51). -/
def regOffsetExists (off : Nat) : Bool := decide (off % 4 = 0) && decide (off ≤ 0xFC)

/-- The number of locations of a space (20_memory.md R50). -/
def Space.size (p : Params) (space : Space) : Nat :=
  match space with
  | .M => p.sizeM
  | .Z => p.sizeZ
  | .ZI => p.sizeZI

/-- Contents the three memories of the instance `p` can hold (10_state.md R38 to R40). -/
def Contents.wf (p : Params) (c : Contents) : Bool :=
  Memory.wf p.sizeM p.W c.M && Memory.wf p.sizeZ p.W c.Z && Memory.wf p.sizeZI p.sMax c.zi

end Sys2Proof
end

