-- ==== Sys2Proof/WellFormed.lean ====
section
/-! DEFINITION. Which terms of the syntax stand for something the spec has: commands, host operations and
memory contents (45_host_access.md R163). -/

namespace Sys2Proof

/-- Every command is well formed: a command word carries no operand (30_encoding.md R70), so there is
nothing to check; operand values are checked when the command runs (10_state.md R23). -/
def Instr.wellFormed (i : Instr) : Bool :=
  match i with
  | .extract => true
  | .xorrow => true
  | .build => true
  | .elim => true
  | .pass => true

/-- The host operations that exist on the instance `p` (45_host_access.md R156 to R163). -/
def HostOp.wellFormed (p : Params) (op : HostOp) : Bool :=
  match op with
  | .regRead off => regOffsetExists off
  | .regWrite off _ => regOffsetExists off
  | .hostRead space idx => decide (idx < space.size p)
  | .hostWrite space idx v =>
    decide (space = .M) && decide (idx < space.size p) && decide (v.toNat < 2 ^ p.W)
  | .reset contents => contents.wf p

end Sys2Proof
end

