-- ==== Sys2Proof/Decode.lean ====
section
/-! DEFINITION. The command words: the decoder, total on every 32-bit word and rejecting by name
(30_encoding.md R70 to R72), and after it the encoder, both from the opcode map of R71. -/

namespace Sys2Proof

/-- Why a command word is illegal (30_encoding.md R72). -/
inductive IllegalWord where
  /-- A bit of the field `ZERO`, bits 31:8, is set. -/
  | reservedBits
  /-- `OP` is 0x00 or from 0x06 to 0xFF. -/
  | unassignedOpcode
  deriving DecidableEq, Repr

/-- The field `OP`, bits 7:0 (30_encoding.md R70). -/
def opField (c : Word) : BitVec 8 := c.extractLsb' 0 8

/-- The field `ZERO`, bits 31:8 (30_encoding.md R70). -/
def zeroField (c : Word) : BitVec 24 := c.extractLsb' 8 24

/-- The opcode map of 30_encoding.md R71, read from opcode to command. -/
def instrOfOpcode (op : BitVec 8) : Option Instr :=
  if op = 0x01 then some .extract
  else if op = 0x02 then some .xorrow
  else if op = 0x03 then some .build
  else if op = 0x04 then some .elim
  else if op = 0x05 then some .pass
  else none

/-- The decoder: every word is one of the five commands or illegal (30_encoding.md R72). -/
def decode (c : Word) : Except IllegalWord Instr :=
  if zeroField c ≠ 0 then .error .reservedBits
  else
    match instrOfOpcode (opField c) with
    | some i => .ok i
    | none => .error .unassignedOpcode

/-- The opcode map of 30_encoding.md R71, read from command to opcode. -/
def opcodeOf (i : Instr) : BitVec 8 :=
  match i with
  | .extract => 0x01
  | .xorrow => 0x02
  | .build => 0x03
  | .elim => 0x04
  | .pass => 0x05

/-- The encoder: `OP` in bits 7:0 and `ZERO` in bits 31:8 (30_encoding.md R70). -/
def encode (i : Instr) : Word := (0 : BitVec 24) ++ opcodeOf i

/-- The command word that a table word of `nbits` bits stands for: one 32-bit word, every bit at or above
`nbits` zero. -/
def tableWord (nbits w : Nat) : Word := BitVec.ofNat 32 (w % 2 ^ nbits)

/-- What the decoder reads from a table word (fixed name of the host). -/
def decodeTableWord (nbits w : Nat) : Option Instr :=
  match decode (tableWord nbits w) with
  | .ok i => some i
  | .error _ => none

end Sys2Proof
end

