-- ==== Sys2Proof/Machine/State.lean ====
section
/-! DEFINITION. The state of the block (10_state.md R20), the reasons a step can stop, the causes of
`InvalidArgument` (60_exceptions.md R176) and the state after reset (10_state.md R43). -/

namespace Sys2Proof.Machine

/-- Why the machine stops with a fault. The spec's own exception, `InvalidArgument`, is NOT among these:
taking it is a next state (60_exceptions.md R181). -/
inductive Fault where
  /-- Raised by `performOp` for a register access at an offset that is not a multiple of 4 or is above 0xFC:
  no such operation exists (45_host_access.md R163). SAFE: the model stops where the spec has no
  transition. -/
  | noSuchRegister (off : Nat)
  /-- Raised by `performOp` for a host access to a memory index outside its space (45_host_access.md R163).
  SAFE: the model stops where the spec has no transition. -/
  | noSuchLocation (space : Space) (idx : Nat)
  deriving DecidableEq, Repr

/-- Why the machine refuses a step. -/
inductive Refusal where
  /-- Reserved for an arm of `exec` without a meaning; no arm answers with it. SAFE. -/
  | notModelled (mnemonic : String)
  /-- Raised by `performOp` for a host write to `Z` or `ZI`, which the host cannot write
  (45_host_access.md R162). SAFE: the spec has no transition for it. -/
  | hostCannotWrite (space : Space)
  /-- Raised by `performOp` for a host write of a value wider than a word of `M`
  (45_host_access.md R163). SAFE: the spec has no transition for it. -/
  | valueTooWide (v : Word)
  /-- Raised by `performOp` for a reset whose contents are no contents of this instance's memories (an index
  outside its space, a value wider than its location, or not in canonical form). SAFE: no reset leaves such
  contents (notes/assumptions/8.md). -/
  | impossibleContents
  deriving DecidableEq, Repr

/-- The causes of `InvalidArgument` (60_exceptions.md R176). -/
inductive Cause where
  /-- The word is not one of the five. -/
  | illegalCmd
  /-- `CFG_M > M_MAX` or `CFG_WDS > WDS_MAX`. -/
  | cfgRange
  /-- `S = 0` or `S > S_MAX`. -/
  | sRange
  /-- `s + S > wds * W`. -/
  | windowRange
  /-- `s + S > m`. -/
  | rowRange
  /-- A row reference is not valid. -/
  | refRange
  /-- `length = 0` or `length > W` or `offset + length > wds * W`. -/
  | fieldRange
  /-- `totalWords ≠ wds`. -/
  | lengthMismatch
  /-- Not (`TBL.VALID = 1` and `TBL.s = s` and `TBL.S = S`). -/
  | tableMismatch
  deriving DecidableEq, Repr

/-- The state of one block instance (10_state.md R20) with the model's own fields `params`, `pending` and
`answers`. Plain data. -/
structure State where
  /-- The instance's parameters, which no step changes (00_scope.md R8; notes/assumptions/1.md). -/
  params : Params
  /-- `x[0]` (R21). -/
  x0 : Word
  /-- `x[1]` (R21). -/
  x1 : Word
  /-- `x[2]` (R21). -/
  x2 : Word
  /-- `x[3]` (R21). -/
  x3 : Word
  /-- `x[4]` (R21). -/
  x4 : Word
  /-- `CFG_M`, the number `m` of matrix rows in use (R30). -/
  cfgM : Word
  /-- `CFG_WDS`, the number `wds` of words of a row in use (R31). -/
  cfgWds : Word
  /-- `STATUS`: `FAULT` in bit 0, `CAUSE` in bits 15:8 (R32). -/
  status : Word
  /-- `FCMD`, the command word of the most recent fault (R33). -/
  fcmd : Word
  /-- `TBL_OFF`, the field `s` of the table tag (R34). -/
  tblOff : Word
  /-- `TBL_CNT`: the fields `S`, bits 7:0, and `VALID`, bit 31, of the table tag (R35). -/
  tblCnt : Word
  /-- The matrix memory `M` (R38). -/
  M : Memory
  /-- The table memory `Z` (R39). -/
  Z : Memory
  /-- The membership array `z` (R40). -/
  zi : Memory
  /-- The host operations still to be performed, the next one first (45_host_access.md R165;
  notes/assumptions/4.md). -/
  pending : List HostOp
  /-- The values the host's reads returned, oldest first (notes/assumptions/5.md). -/
  answers : List Word
  deriving DecidableEq, Repr

/-- The instance `p` right after reset with the contents `c` in its memories: every register 0
(10_state.md R43), the memories any contents (R43, "unspecified"), the block idle (70_reset_and_hazards.md
R201). -/
def State.resetWith (p : Params) (c : Contents) : State :=
  { params := p
    x0 := 0, x1 := 0, x2 := 0, x3 := 0, x4 := 0
    cfgM := 0, cfgWds := 0, status := 0, fcmd := 0, tblOff := 0, tblCnt := 0
    M := c.M, Z := c.Z, zi := c.zi
    pending := [], answers := [] }

/-- The machine right after reset: the reference configuration, nothing listed in the memories
(notes/assumptions/1.md, 2.md). -/
def State.reset : State := State.resetWith Params.reference { M := [], Z := [], zi := [] }

end Sys2Proof.Machine
end

