-- ==== Sys2Proof/Machine/Flags.lean ====
section
/-! DEFINITION. The status bit and the packed fields of the control registers. There are no condition codes
and no arithmetic flags (10_state.md R25); the only status bit is `STATUS.FAULT`. -/

namespace Sys2Proof.Machine

/-- The cause codes (60_exceptions.md R176). -/
def Cause.code (c : Cause) : BitVec 8 :=
  match c with
  | .illegalCmd => 0x01
  | .cfgRange => 0x02
  | .sRange => 0x03
  | .windowRange => 0x04
  | .rowRange => 0x05
  | .refRange => 0x06
  | .fieldRange => 0x07
  | .lengthMismatch => 0x08
  | .tableMismatch => 0x09

/-- `STATUS` with `FAULT = 1` and the given `CAUSE`, every other bit 0 (10_state.md R32). -/
def faultStatus (c : Cause) : Word := (0 : BitVec 16) ++ (c.code ++ (1 : BitVec 8))

/-- `STATUS.FAULT`, bit 0 (10_state.md R32). -/
def State.faulted (s : State) : Bool := s.status.getLsbD 0

/-- `STATUS.CAUSE`, bits 15:8 (10_state.md R32). -/
def State.causeField (s : State) : BitVec 8 := s.status.extractLsb' 8 8

/-- The bits of `STATUS` that are not hard-wired to 0 (10_state.md R32). -/
def statusMask : Word := 0x0000FF01

/-- `TBL.VALID`, bit 31 of `TBL_CNT` (10_state.md R35). -/
def State.tblValid (s : State) : Bool := s.tblCnt.getLsbD 31

/-- `TBL.s`, the whole of `TBL_OFF` (10_state.md R34). -/
abbrev State.tblOffset (s : State) : Nat := s.tblOff.toNat

/-- `TBL.S`, bits 7:0 of `TBL_CNT` (10_state.md R35). -/
def State.tblCount (s : State) : Nat := (s.tblCnt.extractLsb' 0 8).toNat

/-- The bits of `TBL_CNT` that are not hard-wired to 0 (10_state.md R35). -/
def tblCntMask : Word := 0x800000FF

/-- `TBL_CNT` with `VALID = 1` and the given `S`, bits 30:8 zero (10_state.md R35). -/
def validTblCnt (S : Word) : Word := 0x80000000 ||| (S &&& 0xFF)

/-- `TBL_CNT` with `VALID <- 0`, the field `S` kept (45_host_access.md R166). -/
def clearedTblCnt (tblCnt : Word) : Word := tblCnt &&& 0x7FFFFFFF

end Sys2Proof.Machine
end

