-- ==== Sys2Proof/Machine/Ops.lean ====
section
/-! DEFINITION. The shared operations: reading and writing one word of each memory, the counted loop of the
pseudocode, taking `InvalidArgument` and returning from it, and the frame every command runs in. -/

namespace Sys2Proof.Machine

/-! ## Words of the three memories -/

/-- `M[r][w]`, at word index `r * WDS_MAX + w` of the space `M` (20_memory.md R52). -/
def State.readM (s : State) (r w : Nat) : Word := s.M.read (r * s.params.wdsMax + w)

/-- `M[r][w] <- v` (20_memory.md R52). -/
def State.writeM (s : State) (r w : Nat) (v : Word) : State :=
  { s with M := s.M.write (r * s.params.wdsMax + w) v }

/-- `Z[e][w]`, at word index `e * WDS_MAX + w` of the space `Z` (20_memory.md R53). -/
def State.readZ (s : State) (e w : Nat) : Word := s.Z.read (e * s.params.wdsMax + w)

/-- `Z[e][w] <- v` (20_memory.md R53). -/
def State.writeZ (s : State) (e w : Nat) (v : Word) : State :=
  { s with Z := s.Z.write (e * s.params.wdsMax + w) v }

/-- `z[j]`, at index `j` of the space `ZI` (20_memory.md R54). -/
def State.readZI (s : State) (j : Nat) : Word := s.zi.read j

/-- `z[j] <- v` (20_memory.md R54). -/
def State.writeZI (s : State) (j : Nat) (v : Word) : State := { s with zi := s.zi.write j v }

/-! ## The loop of the pseudocode -/

/-- `n` turns of a loop whose variable starts at `a` and goes upward. -/
def forCount {σ : Type} (n a : Nat) (body : Nat → σ → σ) (s : σ) : σ :=
  match n with
  | 0 => s
  | k + 1 => forCount k (a + 1) body (body a s)

/-- `for i in a .. b - 1: body`: upward through every integer, empty when `b ≤ a` (00_scope.md R16). -/
def forRange {σ : Type} (a b : Nat) (body : Nat → σ → σ) (s : σ) : σ := forCount (b - a) a body s

/-! ## The exception -/

/-- TAKING THE EXCEPTION: `raise InvalidArgument(cause)` for the command word `word`. It records the cause
and the word and does nothing else: no control transfer, no mode change (60_exceptions.md R181). -/
def State.raise (s : State) (cause : Cause) (word : Word) : State :=
  { s with status := faultStatus cause, fcmd := word }

/-- THE RETURN FROM IT: `STATUS.FAULT <- 0`, `STATUS.CAUSE <- 0`, nothing restored and `FCMD` kept
(60_exceptions.md R183, 10_state.md R33). The other bits of `STATUS` are 0 (R32). -/
def State.clearFault (s : State) : State := { s with status := 0 }

/-! ## The frame of a command -/

/-- The first check of a list that fails decides the cause (60_exceptions.md R178, R179). -/
def firstCause (checks : List (Bool × Cause)) : Option Cause :=
  match checks with
  | [] => none
  | (ok, cause) :: rest => if ok then firstCause rest else some cause

/-- The common check made for every legal command, before its own (60_exceptions.md R177). -/
def cfgCheck (s : State) : Bool × Cause :=
  (decide (s.cfgM.toNat ≤ s.params.mMax) && decide (s.cfgWds.toNat ≤ s.params.wdsMax), .cfgRange)

/-- How every command runs (30_encoding.md R81): dropped while `STATUS.FAULT = 1` (60_exceptions.md R180);
else the common check and the command's own checks in order (R177, R178); only if all pass, its effect.
Every check comes before the first write (R182). -/
def command (word : Word) (checks : State → List (Bool × Cause)) (effect : State → State) (s : State) :
    Host.Outcome State Fault Refusal :=
  if s.faulted then .next s
  else
    match firstCause (cfgCheck s :: checks s) with
    | some cause => .next (s.raise cause word)
    | none => .next (effect s)

/-- An illegal word written to `CMD` (30_encoding.md R72): dropped while `STATUS.FAULT = 1`, else it raises
`ILLEGAL_CMD`, which comes before every other check (60_exceptions.md R177). -/
def illegalCommand (word : Word) (s : State) : Host.Outcome State Fault Refusal :=
  if s.faulted then .next s else .next (s.raise .illegalCmd word)

end Sys2Proof.Machine
end

