-- ==== Sys2Proof/Machine/Operands.lean ====
section
/-! DEFINITION. The operand forms: row references (30_encoding.md R76, R77), the operand checks shared by
several commands, and the function `extract` and the procedure `xorInto` that the commands call. -/

namespace Sys2Proof.Machine

/-- One row of the matrix or of the table (30_encoding.md R76). -/
structure RowRef where
  /-- `SPACE`: the row is in the table. -/
  table : Bool
  /-- `IDX`, the row index. -/
  idx : Nat
  deriving DecidableEq, Repr

/-- The row a 32-bit reference names: `SPACE` in bit 31, `IDX` in bits 15:0 (30_encoding.md R76). -/
def rowRef (v : Word) : RowRef :=
  { table := v.getLsbD 31, idx := (v.extractLsb' 0 16).toNat }

/-- A reference is valid when bits 30:16 are 0 and `IDX` is below `m` for a matrix row, below `2^S_MAX` for a
table row (30_encoding.md R77). -/
def State.refValid (s : State) (v : Word) : Bool :=
  decide (v.extractLsb' 16 15 = 0) &&
    decide ((rowRef v).idx < if (rowRef v).table then 2 ^ s.params.sMax else s.cfgM.toNat)

/-- `Row(ref)[w]` (00_scope.md R14). -/
def State.readRow (s : State) (ref : RowRef) (w : Nat) : Word :=
  if ref.table then s.readZ ref.idx w else s.readM ref.idx w

/-- `Row(ref)[w] <- v` (00_scope.md R14). -/
def State.writeRow (s : State) (ref : RowRef) (w : Nat) (v : Word) : State :=
  if ref.table then s.writeZ ref.idx w v else s.writeM ref.idx w v

/-- `m`, the matrix rows in use (00_scope.md R13). -/
abbrev State.m (s : State) : Nat := s.cfgM.toNat

/-- `wds`, the words of a row in use (00_scope.md R13). -/
abbrev State.wds (s : State) : Nat := s.cfgWds.toNat

/-- The row length in bits, `wds * W` (00_scope.md R9). -/
abbrev State.rowBits (s : State) : Nat := s.wds * s.params.W

/-- `k0 = s div W`, the first word a pass reads or writes (42_buildtable.md R112). -/
def skipBoundary (p : Params) (s : Nat) : Nat := s / p.W

/-! ## The bit-field extractor -/

/-- The computation of 40_extract.md R92 on a row given by its words, in exact arithmetic (R97). -/
def fieldFormula (W : Nat) (row : Nat → Nat) (offset length : Nat) : Nat :=
  let w0 := offset / W
  let w1 := (offset + length - 1) / W
  let b := offset % W
  let low := row w0 >>> b
  let r := if w0 < w1 then low ||| (row w1 <<< (W - b)) else low
  r &&& (2 ^ length - 1)

/-- The preconditions of `extract` (40_extract.md R92). -/
def State.fieldExists (s : State) (offset length : Nat) : Bool :=
  decide (1 ≤ length) && decide (length ≤ s.params.W) && decide (offset + length ≤ s.rowBits)

/-- `extract(ref, offset, length)`: the formula where its preconditions hold (40_extract.md R92), and no
value of the model's choosing outside them (R98; notes/assumptions/6.md). -/
def State.extract (s : State) (ref : RowRef) (offset length : Nat) : Nat :=
  if s.fieldExists offset length then
    fieldFormula s.params.W (fun w => (s.readRow ref w).toNat) offset length
  else Config.fieldOutside offset length

/-- Column `i` of a row: bit `i mod W` of word `i div W` (20_memory.md R55). -/
def State.column (s : State) (ref : RowRef) (i : Nat) : Nat :=
  (s.readRow ref (i / s.params.W)).toNat / 2 ^ (i % s.params.W) % 2

/-! ## The row XOR primitive -/

/-- `xorInto(dest, left, right, startWord, totalWords)`: word by word upward, both reads before the write
(41_xorinto.md R102). -/
def xorInto (dest left right : RowRef) (startWord totalWords : Nat) (s : State) : State :=
  forRange startWord totalWords
    (fun w t => t.writeRow dest w (t.readRow left w ^^^ t.readRow right w)) s

/-! ## Checks on the operands `s` and `S` of a pass -/

/-- `s`, the pivot offset: the whole of `x[1]` (30_encoding.md R74, R75). -/
abbrev State.pivotOffset (s : State) : Nat := s.x1.toNat

/-- `S`, the pivot count: the whole of `x[2]` (30_encoding.md R74, R75). -/
abbrev State.pivotCount (s : State) : Nat := s.x2.toNat

/-- The three checks that `BUILD`, `ELIM` and `PASS` share, in order, on exact sums
(42_buildtable.md R111). -/
def windowChecks (s : State) : List (Bool × Cause) :=
  [ (decide (1 ≤ s.pivotCount) && decide (s.pivotCount ≤ s.params.sMax), .sRange),
    (decide (s.pivotOffset + s.pivotCount ≤ s.rowBits), .windowRange),
    (decide (s.pivotOffset + s.pivotCount ≤ s.m), .rowRange) ]

end Sys2Proof.Machine
end

