-- ==== Sys2Proof/Machine/Build.lean ====
section
/-! DEFINITION. The command `BUILD` (42_buildtable.md). -/

namespace Sys2Proof.Machine

/-- Row `r` of the matrix. -/
def matrixRow (r : Nat) : RowRef := { table := false, idx := r }

/-- Row `e` of the table. -/
def tableRow (e : Nat) : RowRef := { table := true, idx := e }

/-- The zero fill: words `k0 .. wds-1` of the table rows `0 .. 2^S - 1` (42_buildtable.md R114). -/
def zeroFill (S k0 : Nat) (s : State) : State :=
  forRange 0 (2 ^ S) (fun e t => forRange k0 s.wds (fun w u => u.writeZ e w 0) t) s

/-- One turn of the inner loop, for the slot `j`, pivot row `r`, field `vv`, `ii = 2^i`
(42_buildtable.md R113, R115). -/
def buildSlot (r vv ii k0 : Nat) (j : Nat) (s : State) : State :=
  let a := (s.readZI j).toNat
  let b := a ^^^ vv
  xorInto (tableRow b) (tableRow a) (matrixRow r) k0 s.wds (s.writeZI (j + ii) (BitVec.ofNat 32 b))

/-- One turn of the outer loop, for the pivot row `s0 + i`: its field, then the slots `0 .. 2^i - 1`
(42_buildtable.md R113). -/
def buildPivot (s0 S k0 : Nat) (i : Nat) (s : State) : State :=
  forRange 0 (2 ^ i) (buildSlot (s0 + i) (s.extract (matrixRow (s0 + i)) s0 S) (2 ^ i) k0) s

/-- The table tag `TBL <- (VALID = 1, s, S)` (42_buildtable.md R116). -/
def State.setTag (s : State) : State := { s with tblOff := s.x1, tblCnt := validTblCnt s.x2 }

/-- `build(s, S)` with `s = x[1]`, `S = x[2]` (42_buildtable.md R113). -/
def buildEffect (s : State) : State :=
  let s0 := s.pivotOffset
  let S := s.pivotCount
  let k0 := skipBoundary s.params s0
  (forRange 0 S (buildPivot s0 S k0) ((zeroFill S k0 s).writeZI 0 0)).setTag

/-- `BUILD` (42_buildtable.md R110, R111, R113). -/
def execBuild (s : State) : Host.Outcome State Fault Refusal :=
  command (encode .build) windowChecks buildEffect s

end Sys2Proof.Machine
end

