-- ==== Sys2Proof/Machine/Eliminate.lean ====
section
/-! DEFINITION. The command `ELIM` (43_eliminate.md). -/

namespace Sys2Proof.Machine

/-- `TBL.VALID = 1` and `TBL.s = s` and `TBL.S = S` (43_eliminate.md R131, check 4). -/
def State.tagMatches (s : State) : Bool :=
  s.tblValid && decide (s.tblOffset = s.pivotOffset) && decide (s.tblCount = s.pivotCount)

/-- The checks of `ELIM` in order (43_eliminate.md R131). -/
def elimChecks (s : State) : List (Bool × Cause) :=
  windowChecks s ++ [(s.tagMatches, .tableMismatch)]

/-- One turn of the loop: row `i` XORed with the table row its field selects, words `k0 .. wds-1`
(43_eliminate.md R132). -/
def elimRow (s0 S k0 : Nat) (i : Nat) (s : State) : State :=
  xorInto (matrixRow i) (matrixRow i) (tableRow (s.extract (matrixRow i) s0 S)) k0 s.wds s

/-- `eliminate(s, S)` with `s = x[1]`, `S = x[2]` (43_eliminate.md R132). -/
def elimEffect (s : State) : State :=
  let s0 := s.pivotOffset
  let S := s.pivotCount
  forRange (s0 + S) s.m (elimRow s0 S (skipBoundary s.params s0)) s

/-- `ELIM` (43_eliminate.md R130, R131, R132). -/
def execElim (s : State) : Host.Outcome State Fault Refusal :=
  command (encode .elim) elimChecks elimEffect s

end Sys2Proof.Machine
end

