-- ==== Sys2Proof/Machine/Extract.lean ====
section
/-! DEFINITION. The command `EXTRACT` (40_extract.md). -/

namespace Sys2Proof.Machine

/-- The checks of `EXTRACT` in order: the reference `x[1]`, then the field `x[2]`, `x[3]`
(40_extract.md R91). -/
def extractChecks (s : State) : List (Bool × Cause) :=
  [ (s.refValid s.x1, .refRange),
    (s.fieldExists s.x2.toNat s.x3.toNat, .fieldRange) ]

/-- `x[0] <- zext_32(extract(x[1], x[2], x[3]))` (40_extract.md R94). -/
def extractEffect (s : State) : State :=
  { s with x0 := BitVec.ofNat 32 (s.extract (rowRef s.x1) s.x2.toNat s.x3.toNat) }

/-- `EXTRACT` (40_extract.md R90, R91, R94). -/
def execExtract (s : State) : Host.Outcome State Fault Refusal :=
  command (encode .extract) extractChecks extractEffect s

end Sys2Proof.Machine
end

