-- ==== Sys2Proof/Machine/Pass.lean ====
section
/-! DEFINITION. The command `PASS` (44_pass.md). -/

namespace Sys2Proof.Machine

/-- The build phase to its end, tag included, then the eliminate phase (44_pass.md R147). -/
def passEffect (s : State) : State := elimEffect (buildEffect s)

/-- `PASS`: the checks of `BUILD`, made before the build phase; the eliminate phase makes none of its own
(44_pass.md R145 to R147). -/
def execPass (s : State) : Host.Outcome State Fault Refusal :=
  command (encode .pass) windowChecks passEffect s

end Sys2Proof.Machine
end

