-- ==== Sys2Proof/Machine/XorRow.lean ====
section
/-! DEFINITION. The command `XORROW` (41_xorinto.md). -/

namespace Sys2Proof.Machine

/-- The checks of `XORROW` in order: the references `x[0]`, `x[1]`, `x[2]`, then the length;
`startWord` is not checked (41_xorinto.md R101). -/
def xorrowChecks (s : State) : List (Bool × Cause) :=
  [ (s.refValid s.x0, .refRange),
    (s.refValid s.x1, .refRange),
    (s.refValid s.x2, .refRange),
    (decide (s.x4.toNat = s.wds), .lengthMismatch) ]

/-- `xorInto(x[0], x[1], x[2], x[3], x[4])` (41_xorinto.md R103). -/
def xorrowEffect (s : State) : State :=
  xorInto (rowRef s.x0) (rowRef s.x1) (rowRef s.x2) s.x3.toNat s.x4.toNat s

/-- `XORROW` (41_xorinto.md R100, R101, R103). -/
def execXorrow (s : State) : Host.Outcome State Fault Refusal :=
  command (encode .xorrow) xorrowChecks xorrowEffect s

end Sys2Proof.Machine
end

