-- ==== Sys2Proof/Machine/Dispatch.lean ====
section
/-! DEFINITION. The meaning of each command (30_encoding.md R71), one arm per constructor. -/

namespace Sys2Proof.Machine

def exec (i : Instr) (s : State) : Host.Outcome State Fault Refusal :=
  match i with
  | .extract => Sys2Proof.Machine.execExtract s
  | .xorrow => Sys2Proof.Machine.execXorrow s
  | .build => Sys2Proof.Machine.execBuild s
  | .elim => Sys2Proof.Machine.execElim s
  | .pass => Sys2Proof.Machine.execPass s

end Sys2Proof.Machine
end

