-- ==== Sys2Proof/Machine/HostAccess.lean ====
section
/-! DEFINITION. The host operations (45_host_access.md) and the register map (10_state.md R26). -/

namespace Sys2Proof.Machine

/-! ## The register map -/

/-- The registers of 10_state.md R26, and `reserved` for every other offset (R37). -/
inductive Reg where
  /-- `ID` (R27). -/
  | id
  /-- `PARAM0` (R28). -/
  | param0
  /-- `PARAM1` (R29). -/
  | param1
  /-- `CFG_M` (R30). -/
  | cfgM
  /-- `CFG_WDS` (R31). -/
  | cfgWds
  /-- `STATUS` (R32). -/
  | status
  /-- `FCMD` (R33). -/
  | fcmd
  /-- `TBL_OFF` (R34). -/
  | tblOff
  /-- `TBL_CNT` (R35). -/
  | tblCnt
  /-- `CMD` (R36). -/
  | cmd
  /-- `X0` (R21). -/
  | x0
  /-- `X1` (R21). -/
  | x1
  /-- `X2` (R21). -/
  | x2
  /-- `X3` (R21). -/
  | x3
  /-- `X4` (R21). -/
  | x4
  /-- A reserved offset (R37). -/
  | reserved
  deriving DecidableEq, Repr

/-- The register at a byte offset (10_state.md R26). -/
def regAt (off : Nat) : Reg :=
  match off with
  | 0x00 => .id
  | 0x04 => .param0
  | 0x08 => .param1
  | 0x0C => .cfgM
  | 0x10 => .cfgWds
  | 0x14 => .status
  | 0x18 => .fcmd
  | 0x1C => .tblOff
  | 0x20 => .tblCnt
  | 0x24 => .cmd
  | 0x40 => .x0
  | 0x44 => .x1
  | 0x48 => .x2
  | 0x4C => .x3
  | 0x50 => .x4
  | _ => .reserved

/-- `ID` (10_state.md R27). -/
def idValue : Word := 0x544D4154

/-- `PARAM0`: `W` in bits 7:0, `S_MAX` in bits 15:8, bits 31:16 zero (10_state.md R28). -/
def param0Value (p : Params) : Word :=
  (0 : BitVec 16) ++ (BitVec.ofNat 8 p.sMax ++ BitVec.ofNat 8 p.W)

/-- `PARAM1`: `WDS_MAX` in bits 15:0, `M_MAX` in bits 31:16 (10_state.md R29). -/
def param1Value (p : Params) : Word := BitVec.ofNat 16 p.mMax ++ BitVec.ofNat 16 p.wdsMax

/-- The value a `RegRead` returns (45_host_access.md R156); hard-wired bits read 0 (10_state.md R32, R35). -/
def readReg (s : State) (r : Reg) : Word :=
  match r with
  | .id => idValue
  | .param0 => param0Value s.params
  | .param1 => param1Value s.params
  | .cfgM => s.cfgM
  | .cfgWds => s.cfgWds
  | .status => s.status &&& statusMask
  | .fcmd => s.fcmd
  | .tblOff => s.tblOff
  | .tblCnt => s.tblCnt &&& tblCntMask
  | .cmd => 0
  | .x0 => s.x0
  | .x1 => s.x1
  | .x2 => s.x2
  | .x3 => s.x3
  | .x4 => s.x4
  | .reserved => 0

/-- A write of the word `c` to `CMD`: decoded, then run as the command it is or raised as illegal
(30_encoding.md R81, 45_host_access.md R158). The drop while `STATUS.FAULT = 1` stands in `command` and in
`illegalCommand`, before everything else they do. -/
def writeCmd (c : Word) (s : State) : Host.Outcome State Fault Refusal :=
  match decode c with
  | .ok i => exec i s
  | .error _ => illegalCommand c s

/-- A `RegWrite` (45_host_access.md R157, R158, R166, R167). Read-only and reserved registers ignore it. -/
def writeReg (r : Reg) (v : Word) (s : State) : Host.Outcome State Fault Refusal :=
  match r with
  | .cmd => writeCmd v s
  | .cfgM => .next { s with cfgM := v, tblCnt := clearedTblCnt s.tblCnt }
  | .cfgWds => .next { s with cfgWds := v, tblCnt := clearedTblCnt s.tblCnt }
  | .status => .next (if v.getLsbD 0 then s.clearFault else s)
  | .x0 => .next { s with x0 := v }
  | .x1 => .next { s with x1 := v }
  | .x2 => .next { s with x2 := v }
  | .x3 => .next { s with x3 := v }
  | .x4 => .next { s with x4 := v }
  | .id => .next s
  | .param0 => .next s
  | .param1 => .next s
  | .fcmd => .next s
  | .tblOff => .next s
  | .tblCnt => .next s
  | .reserved => .next s

/-! ## Memory access and reset -/

/-- The value at one location of a space: `idx` is `row * WDS_MAX + word` in `M` and `Z`
(45_host_access.md R159, R161). -/
def State.hostWord (s : State) (space : Space) (idx : Nat) : Word :=
  match space with
  | .M => s.M.read idx
  | .Z => s.Z.read idx
  | .ZI => s.zi.read idx

/-- The host is given the value of its read (notes/assumptions/5.md). -/
def State.answer (s : State) (v : Word) : State := { s with answers := s.answers ++ [v] }

/-- A `HostWrite` to an index of the space `M` (45_host_access.md R160). -/
def State.hostStore (s : State) (idx : Nat) (v : Word) : State := { s with M := s.M.write idx v }

/-- The reset input: every register to its reset value, the memories with unspecified contents, here those the
operation carries (10_state.md R43, 70_reset_and_hazards.md R200, R201). The host's list and what it has
been told are the host's and stay. -/
def State.hardReset (s : State) (c : Contents) : State :=
  { State.resetWith s.params c with pending := s.pending, answers := s.answers }

/-- One host operation (45_host_access.md R155). Operations that do not exist stop the model by name
(R162, R163; notes/assumptions/7.md). -/
def performOp (op : HostOp) (s : State) : Host.Outcome State Fault Refusal :=
  match op with
  | .regRead off =>
    if regOffsetExists off then .next (s.answer (readReg s (regAt off))) else .fault (.noSuchRegister off)
  | .regWrite off v =>
    if regOffsetExists off then writeReg (regAt off) v s else .fault (.noSuchRegister off)
  | .hostRead space idx =>
    if idx < space.size s.params then .next (s.answer (s.hostWord space idx))
    else .fault (.noSuchLocation space idx)
  | .hostWrite space idx v =>
    if space ≠ .M then .refused (.hostCannotWrite space)
    else if ¬ idx < space.size s.params then .fault (.noSuchLocation space idx)
    else if ¬ v.toNat < 2 ^ s.params.W then .refused (.valueTooWide v)
    else .next (s.hostStore idx v)
  | .reset contents =>
    if contents.wf s.params then .next (s.hardReset contents) else .refused .impossibleContents

/-- The next host operation is taken from the list and performed; with none left the block is idle and keeps
all its state (45_host_access.md R165, 60_exceptions.md R189). -/
def serveNext (s : State) : Host.Outcome State Fault Refusal :=
  match s.pending with
  | [] => .next s
  | op :: rest => performOp op { s with pending := rest }

/-- The offset of `CMD` (10_state.md R26). -/
def cmdOffset : Nat := 0x24

/-- The host's next operation is the write of the word `c` to `CMD`, then what it was about to do. -/
def State.queueCommand (s : State) (c : Word) : State :=
  { s with pending := .regWrite cmdOffset c :: s.pending }

end Sys2Proof.Machine
end

