-- ==== Sys2Proof/Machine/Step.lean ====
section
/-! DEFINITION. One step of the machine and the place it fetches from. -/

namespace Sys2Proof.Machine

/-- One step: the host's next operation, a whole command included (45_host_access.md R155, R158). -/
def step (s : State) : Host.Outcome State Fault Refusal := serveNext s

/-- The state whose next step runs the command word of the table word `w`: commands come only from the host's
writes to `CMD` (20_memory.md R64), so the write is the host's next operation (notes/assumptions/4.md). -/
def State.withFetchWord (s : State) (nbits w : Nat) : State := s.queueCommand (tableWord nbits w)

end Sys2Proof.Machine
end

