-- ==== Sys2Proof/Safety.lean ====
section
/-! DEFINITION. The terms the claims use: when a command runs normally, what a legal state is, and the
subset sums of pivot rows the table is about. Nothing here is used by the machine. -/

namespace Sys2Proof.Machine

/-! ## When a command runs normally -/

/-- No fault is recorded and the configuration is within capacity, so a legal command goes on to its own
checks (30_encoding.md R81, 60_exceptions.md R177). -/
abbrev State.CanRun (s : State) : Prop :=
  s.faulted = false ∧ s.cfgM.toNat ≤ s.params.mMax ∧ s.cfgWds.toNat ≤ s.params.wdsMax

/-- The 32-bit value `v` names an existing row, in arithmetic on the value: bits 30:16 are 0 and the index,
bits 15:0, is below `m` (bit 31 clear) or below `2^S_MAX` (bit 31 set) (30_encoding.md R76, R77). -/
abbrev State.NamesRow (s : State) (v : Word) : Prop :=
  v.toNat / 65536 % 32768 = 0 ∧
    v.toNat % 65536 < (if v.toNat < 2147483648 then s.cfgM.toNat else 2 ^ s.params.sMax)

/-- The field `[offset, offset + length)` is one that `extract` is defined on (40_extract.md R91, R92). -/
abbrev State.FieldOk (s : State) (offset length : Nat) : Prop :=
  1 ≤ length ∧ length ≤ s.params.W ∧ offset + length ≤ s.cfgWds.toNat * s.params.W

/-- `EXTRACT` runs normally (40_extract.md R91). -/
abbrev State.ExtractReady (s : State) : Prop :=
  s.CanRun ∧ s.NamesRow s.x1 ∧ s.FieldOk s.x2.toNat s.x3.toNat

/-- `XORROW` runs normally (41_xorinto.md R101). -/
abbrev State.XorrowReady (s : State) : Prop :=
  s.CanRun ∧ s.NamesRow s.x0 ∧ s.NamesRow s.x1 ∧ s.NamesRow s.x2 ∧ s.x4.toNat = s.cfgWds.toNat

/-- `BUILD` and `PASS` run normally (42_buildtable.md R111, 44_pass.md R146). -/
abbrev State.PassReady (s : State) : Prop :=
  s.CanRun ∧ (1 ≤ s.x2.toNat ∧ s.x2.toNat ≤ s.params.sMax) ∧
    s.x1.toNat + s.x2.toNat ≤ s.cfgWds.toNat * s.params.W ∧ s.x1.toNat + s.x2.toNat ≤ s.cfgM.toNat

/-- The table tag is the one of the operands (43_eliminate.md R131, check 4). -/
abbrev State.TagIsCurrent (s : State) : Prop :=
  s.tblValid = true ∧ s.tblOff.toNat = s.x1.toNat ∧ s.tblCount = s.x2.toNat

/-- `ELIM` runs normally (43_eliminate.md R131). -/
abbrev State.ElimReady (s : State) : Prop := s.PassReady ∧ s.TagIsCurrent

/-- The row `r` is one that `ELIM` and `PASS` process (43_eliminate.md R132). -/
abbrev State.Processed (s : State) (r : Nat) : Prop :=
  s.x1.toNat + s.x2.toNat ≤ r ∧ r < s.cfgM.toNat

/-- The word `w` is one that a pass touches: `k0 ≤ w < wds` with `k0 = s div W` (42_buildtable.md R112). -/
abbrev State.Touched (s : State) (w : Nat) : Prop := s.x1.toNat / s.params.W ≤ w ∧ w < s.cfgWds.toNat

/-! ## The invariant -/

/-- The memories have their canonical form, sizes and widths (10_state.md R38 to R40). -/
abbrev State.MemoriesWf (s : State) : Prop :=
  Memory.wf s.params.sizeM s.params.W s.M = true ∧ Memory.wf s.params.sizeZ s.params.W s.Z = true ∧
    Memory.wf s.params.sizeZI s.params.sMax s.zi = true

/-- `STATUS` is as 10_state.md R32 says: the bits outside `FAULT` and `CAUSE` are 0, `CAUSE` is 0 when
`FAULT` is, and else one of the codes 1 to 9 (60_exceptions.md R176). -/
abbrev State.StatusLegal (s : State) : Prop :=
  s.status &&& 0xFFFF00FE = 0 ∧ (s.faulted = false → s.causeField = 0) ∧
    (s.faulted = true → 1 ≤ s.causeField.toNat ∧ s.causeField.toNat ≤ 9)

/-- `TBL_CNT` has its bits 30:8 zero (10_state.md R35), and a valid tag is one that `BUILD` accepts under the
present configuration (42_buildtable.md R111, R116; 45_host_access.md R166). -/
abbrev State.TagLegal (s : State) : Prop :=
  s.tblCnt &&& 0x7FFFFF00 = 0 ∧
    (s.tblValid = true →
      (1 ≤ s.tblCount ∧ s.tblCount ≤ s.params.sMax) ∧
        (s.cfgM.toNat ≤ s.params.mMax ∧ s.cfgWds.toNat ≤ s.params.wdsMax) ∧
        s.tblOff.toNat + s.tblCount ≤ s.cfgWds.toNat * s.params.W ∧
        s.tblOff.toNat + s.tblCount ≤ s.cfgM.toNat)

/-- What every step keeps, on every legal instance. -/
abbrev State.Invariant (s : State) : Prop :=
  s.params.Legal ∧ s.MemoriesWf ∧ s.StatusLegal ∧ s.TagLegal

/-! ## Subset sums of pivot rows (42_buildtable.md section 2) -/

/-- The XOR of `f i` over the `i < n` whose bit is set in `j`. -/
def subsetXor (n : Nat) (f : Nat → Nat) (j : Nat) : Nat :=
  match n with
  | 0 => 0
  | k + 1 => subsetXor k f j ^^^ (if j.testBit k then f k else 0)

/-- `vv_i`, the field of pivot row `i` (42_buildtable.md section 2). -/
def State.pivotField (s : State) (i : Nat) : Nat :=
  s.extract (matrixRow (s.x1.toNat + i)) s.x1.toNat s.x2.toNat

/-- `V(j)`, the XOR of the fields of the pivot rows in the subset `j` (42_buildtable.md section 2). -/
def State.subsetField (s : State) (j : Nat) : Nat := subsetXor s.x2.toNat s.pivotField j

/-- Word `w` of `C(j)`, the XOR of the pivot rows in the subset `j` (42_buildtable.md section 2). -/
def State.subsetWord (s : State) (j w : Nat) : Nat :=
  subsetXor s.x2.toNat (fun i => (s.readM (s.x1.toNat + i) w).toNat) j

/-- The pivot fields are linearly independent: no non-empty subset of them XORs to 0
(42_buildtable.md R118). -/
abbrev State.IndependentFields (s : State) : Prop :=
  ∀ j, j < 2 ^ s.x2.toNat → j ≠ 0 → s.subsetField j ≠ 0

/-! ## The table as the fold of the writes of `BUILD`, in their order (42_buildtable.md R113, R115) -/

/-- The pairs `(i, j)` of the loop of `BUILD` in its order: `i` upward, and for each `i` the slots
`j = 0 .. 2^i - 1` upward (42_buildtable.md R115). -/
def buildOrder (S : Nat) : List (Nat × Nat) :=
  (List.range S).flatMap fun i => (List.range (2 ^ i)).map fun j => (i, j)

/-- One write of the loop on a table given by its rows and words: `Z[V(j) xor vv_i] <- Z[V(j)] xor P_i`, where
`Z` on the right is the table before the write (42_buildtable.md R113, R117). -/
def State.tableStep (s : State) (table : Nat → Nat → Word) (turn : Nat × Nat) : Nat → Nat → Word :=
  fun e w =>
    if e = s.subsetField turn.2 ^^^ s.pivotField turn.1 then
      table (s.subsetField turn.2) w ^^^ s.readM (s.x1.toNat + turn.1) w
    else table e w

/-- The table that the writes of the loop leave, from the zero fill on: a row written more than once keeps the
last value written (42_buildtable.md R113, R114, R121). -/
def State.builtTable (s : State) : Nat → Nat → Word :=
  (buildOrder s.x2.toNat).foldl s.tableStep fun _ _ => 0

/-! ## Host operations that end a recorded fault -/

/-- The operation clears a fault: a write of `STATUS` with bit 0 set, or a reset (45_host_access.md R167). -/
def clearsFault (op : HostOp) : Bool :=
  match op with
  | .regRead _ => false
  | .regWrite off v => decide (off = 0x14) && v.getLsbD 0
  | .hostRead _ _ => false
  | .hostWrite _ _ _ => false
  | .reset _ => true

end Sys2Proof.Machine
end

