-- ==== Sys2Proof/Certificates/Slice0/Obligations.lean ====
section
/-! DEFINITION. The statements for the provers. Each docstring names the rule or the section of spec/ that the
statement formalises. -/

open Sys2Proof Sys2Proof.Machine

/-! ## Command words and the step -/

/-- 30_encoding.md R71: the five command words, all 32 bits significant, and no other word, decode. -/
def Obligations.CommandWordsDecode : Prop :=
  ∀ (c : Word) (i : Instr), decode c = .ok i ↔
    (c = 0x00000001 ∧ i = .extract) ∨ (c = 0x00000002 ∧ i = .xorrow) ∨ (c = 0x00000003 ∧ i = .build) ∨
      (c = 0x00000004 ∧ i = .elim) ∨ (c = 0x00000005 ∧ i = .pass)

/-- 30_encoding.md section 1 and 2: decoding an encoded command gives it back, and every word that decodes is
the encoding of what it decodes to. -/
def Obligations.DecodeAndEncodeAgree : Prop :=
  (∀ i : Instr, i.wellFormed = true → decode (encode i) = .ok i) ∧
    ∀ (c : Word) (i : Instr), decode c = .ok i → encode i = c

/-- A few command words written out bit by bit from 30_encoding.md R70 and R71, and two illegal ones. -/
def Obligations.WrittenOutWordsDecode : Prop :=
  decodeTableWord 32 0b00000000000000000000000000000001 = some .extract ∧
    decodeTableWord 32 0b00000000000000000000000000000010 = some .xorrow ∧
    decodeTableWord 32 0b00000000000000000000000000000011 = some .build ∧
    decodeTableWord 32 0b00000000000000000000000000000100 = some .elim ∧
    decodeTableWord 32 0b00000000000000000000000000000101 = some .pass ∧
    decodeTableWord 32 0b00000000000000000000000000000110 = none ∧
    decodeTableWord 32 0b00000000000000000000000100000011 = none

/-- 30_encoding.md R72: the words 1 to 5 are the legal ones; every other word, written to `CMD`, raises
`ILLEGAL_CMD` and does nothing else; while a fault is recorded it is dropped (60_exceptions.md R180). -/
def Obligations.IllegalWordRaisesIllegalCmd : Prop :=
  (∀ c : Word, (∃ i, decode c = .ok i) ↔ 1 ≤ c.toNat ∧ c.toNat ≤ 5) ∧
  ∀ (s : State) (c : Word) (rest : List HostOp), s.pending = .regWrite 0x24 c :: rest →
    (c.toNat = 0 ∨ 5 < c.toNat) →
    step s = .next (if s.faulted then { s with pending := rest }
      else { s with pending := rest, status := 0x00000101, fcmd := c })

/-- 45_host_access.md R158: when the host's next operation writes a word to `CMD` that decodes to a
well-formed command, the step takes the operation off the host's list and is `exec` of that command. -/
def Obligations.StepRunsTheDecodedCommand : Prop :=
  ∀ (s : State) (c : Word) (i : Instr) (rest : List HostOp), s.pending = .regWrite 0x24 c :: rest →
    decode c = .ok i → i.wellFormed = true → step s = exec i { s with pending := rest }

/-- 60_exceptions.md section 6 (R189, "between commands the block is idle and keeps all its state"), for the
model's list of host operations (notes/assumptions/4.md). -/
def Obligations.IdleBlockKeepsItsState : Prop :=
  ∀ s : State, s.pending = [] → step s = .next s

/-- 45_host_access.md section 1 (R155 to R163) and 93_implementation_defined.md section 2: the block cannot
hang; a step stops on an operation that does not exist and on nothing else. -/
def Obligations.StepStopsOnlyOnNonexistentOperations : Prop :=
  ∀ (s : State) (op : HostOp) (rest : List HostOp), s.pending = op :: rest →
    ((∃ t, step s = .next t) ↔ op.wellFormed s.params = true)

/-- 45_host_access.md R162 and R163 give no transition for these operations; the names of the stops are the
model's choice (notes/assumptions/7.md). -/
def Obligations.NonexistentOperationsStopByName : Prop :=
  ∀ (s : State) (rest : List HostOp),
    (∀ off, s.pending = .regRead off :: rest → (off % 4 ≠ 0 ∨ 0xFC < off) →
      step s = .fault (.noSuchRegister off)) ∧
    (∀ off v, s.pending = .regWrite off v :: rest → (off % 4 ≠ 0 ∨ 0xFC < off) →
      step s = .fault (.noSuchRegister off)) ∧
    (∀ sp idx, s.pending = .hostRead sp idx :: rest → sp.size s.params ≤ idx →
      step s = .fault (.noSuchLocation sp idx)) ∧
    (∀ sp idx v, s.pending = .hostWrite sp idx v :: rest → sp ≠ .M →
      step s = .refused (.hostCannotWrite sp)) ∧
    (∀ idx v, s.pending = .hostWrite .M idx v :: rest → s.params.mMax * s.params.wdsMax ≤ idx →
      step s = .fault (.noSuchLocation .M idx)) ∧
    (∀ idx v, s.pending = .hostWrite .M idx v :: rest → idx < s.params.mMax * s.params.wdsMax →
      2 ^ s.params.W ≤ v.toNat → step s = .refused (.valueTooWide v))

/-! ## EXTRACT -/

/-- 40_extract.md R92: the computation of `extract`, word by word as the rule gives it, in `x[0]` and nowhere
else, whenever `EXTRACT` runs normally. -/
def Obligations.ExtractFollowsTheFormula : Prop :=
  ∀ s : State, s.ExtractReady →
    let W := s.params.W
    let row := fun w => (s.readRow (rowRef s.x1) w).toNat
    let w0 := s.x2.toNat / W
    let w1 := (s.x2.toNat + s.x3.toNat - 1) / W
    let b := s.x2.toNat % W
    let r := if w0 < w1 then (row w0 >>> b) ||| (row w1 <<< (W - b)) else row w0 >>> b
    exec .extract s = .next { s with x0 := BitVec.ofNat 32 (r &&& (2 ^ s.x3.toNat - 1)) }

/-- 40_extract.md section 2, the sentence of R93 (an inference the spec marks as its own): `EXTRACT` writes to
`x[0]` exactly the `length` columns that start at `offset`, column `offset` as bit 0, and nothing else. -/
def Obligations.ExtractReturnsTheColumns : Prop :=
  ∀ s : State, s.params.Legal → s.MemoriesWf → s.ExtractReady →
    let field := ∑ k ∈ Finset.range s.x3.toNat, s.column (rowRef s.x1) (s.x2.toNat + k) * 2 ^ k
    exec .extract s = .next { s with x0 := BitVec.ofNat 32 field }

/-- 40_extract.md R91 after the common check of 60_exceptions.md R177: the first failing check of `EXTRACT`
decides the cause, and nothing but `STATUS` and `FCMD` changes. -/
def Obligations.ExtractChecksInOrder : Prop :=
  ∀ s : State, s.faulted = false →
    (¬ s.CanRun → exec .extract s = .next { s with status := 0x00000201, fcmd := 0x00000001 }) ∧
    (s.CanRun → ¬ s.NamesRow s.x1 →
      exec .extract s = .next { s with status := 0x00000601, fcmd := 0x00000001 }) ∧
    (s.CanRun → s.NamesRow s.x1 → ¬ s.FieldOk s.x2.toNat s.x3.toNat →
      exec .extract s = .next { s with status := 0x00000701, fcmd := 0x00000001 })

/-! ## XORROW -/

/-- 41_xorinto.md R102: `XORROW` answers a next state in which word `w` of `dest`, `startWord ≤ w < wds`, is
the XOR of the old words `w` of `left` and `right`, for any aliasing of the three rows; no other word of
`M` or `Z`, no register and no entry of `z` changes; with `startWord ≥ wds` nothing changes. -/
def Obligations.XorrowWritesTheXor : Prop :=
  ∀ s : State, s.XorrowReady → ∃ t : State, exec .xorrow s = .next t ∧
    t = { s with M := t.M, Z := t.Z } ∧
    (s.cfgWds.toNat ≤ s.x3.toNat → t = s) ∧
    (∀ w, s.x3.toNat ≤ w → w < s.cfgWds.toNat →
      t.readRow (rowRef s.x0) w = s.readRow (rowRef s.x1) w ^^^ s.readRow (rowRef s.x2) w) ∧
    ((rowRef s.x0).table = false → t.Z = s.Z ∧
      ∀ a, (∀ w, s.x3.toNat ≤ w → w < s.cfgWds.toNat → a ≠ (rowRef s.x0).idx * s.params.wdsMax + w) →
        t.M.read a = s.M.read a) ∧
    ((rowRef s.x0).table = true → t.M = s.M ∧
      ∀ a, (∀ w, s.x3.toNat ≤ w → w < s.cfgWds.toNat → a ≠ (rowRef s.x0).idx * s.params.wdsMax + w) →
        t.Z.read a = s.Z.read a)

/-- 41_xorinto.md R101 after the common check of 60_exceptions.md R177: the first failing check decides the
cause; `startWord` is not checked, and at or above `totalWords` it makes the command do nothing. -/
def Obligations.XorrowChecksInOrder : Prop :=
  ∀ s : State, s.faulted = false →
    (¬ s.CanRun → exec .xorrow s = .next { s with status := 0x00000201, fcmd := 0x00000002 }) ∧
    (s.CanRun → ¬ (s.NamesRow s.x0 ∧ s.NamesRow s.x1 ∧ s.NamesRow s.x2) →
      exec .xorrow s = .next { s with status := 0x00000601, fcmd := 0x00000002 }) ∧
    (s.CanRun → s.NamesRow s.x0 → s.NamesRow s.x1 → s.NamesRow s.x2 → s.x4.toNat ≠ s.cfgWds.toNat →
      exec .xorrow s = .next { s with status := 0x00000801, fcmd := 0x00000002 }) ∧
    (s.CanRun → s.NamesRow s.x0 → s.NamesRow s.x1 → s.NamesRow s.x2 → s.x4.toNat = s.cfgWds.toNat →
      ∃ t : State, exec .xorrow s = .next t ∧ t.faulted = false ∧ (s.x4.toNat ≤ s.x3.toNat → t = s))

/-! ## BUILD -/

/-- 42_buildtable.md section 1, the sentences of R116, R122 and R123 (R123 is an inference the spec marks as
its own): `BUILD` answers a next state that differs only in `Z`, `z` and the tag; the tag is
`(1, s, S)`; in `Z` only words `k0 .. wds-1` of rows `0 .. 2^S - 1` change, in `z` only entries below
`2^S`. -/
def Obligations.BuildWritesOnlyItsRange : Prop :=
  ∀ s : State, s.params.Legal → s.PassReady → ∃ t : State, exec .build s = .next t ∧
    t = { s with Z := t.Z, zi := t.zi, tblOff := s.x1, tblCnt := BitVec.ofNat 32 (2 ^ 31 + s.x2.toNat) } ∧
    (∀ a, (∀ e w, e < 2 ^ s.x2.toNat → s.Touched w → a ≠ e * s.params.wdsMax + w) →
      t.Z.read a = s.Z.read a) ∧
    (∀ j, 2 ^ s.x2.toNat ≤ j → t.zi.read j = s.zi.read j)

/-- 42_buildtable.md section 2, the sentence of R117 (an inference the spec marks as its own): after `BUILD`,
`z[j] = V(j)` for every `j` below `2^S`, whatever the pivot rows are. -/
def Obligations.BuildMembershipHoldsSubsetFields : Prop :=
  ∀ s : State, s.params.Legal → s.PassReady → ∃ t : State, exec .build s = .next t ∧
    ∀ j, j < 2 ^ s.x2.toNat → (t.readZI j).toNat = s.subsetField j

/-- 42_buildtable.md section 2, the sentence of R118 (an inference the spec marks as its own): with linearly
independent pivot fields, the table row at index `V(j)` holds the XOR of the pivot rows in the subset
`j`, in words `k0 .. wds-1`. -/
def Obligations.BuildTableHoldsSubsetRows : Prop :=
  ∀ s : State, s.params.Legal → s.PassReady → s.IndependentFields →
    ∃ t : State, exec .build s = .next t ∧
      ∀ j w, j < 2 ^ s.x2.toNat → s.Touched w → (t.readZ (s.subsetField j) w).toNat = s.subsetWord j w

/-- 42_buildtable.md section 1, the algorithm of R113 in the order of R115 (an inference the spec marks as its
own), for ANY pivot fields, linearly dependent ones too (R121): the words `k0 .. wds-1` of the table rows below
`2^S` are what the writes `Z[V(j) xor vv_i] <- Z[V(j)] xor P_i`, `i` upward and `j` upward, leave of the zero
table, so a row shared by two subsets holds the last value written. -/
def Obligations.BuildTableIsTheOrderedFold : Prop :=
  ∀ s : State, s.params.Legal → s.PassReady → ∃ t : State, exec .build s = .next t ∧
    ∀ e w, e < 2 ^ s.x2.toNat → s.Touched w → t.readZ e w = s.builtTable e w

/-- 42_buildtable.md section 2, the sentence of R119 (an inference the spec marks as its own): with linearly
independent pivot fields every table row's own field is its index. -/
def Obligations.BuildTableFieldIsItsIndex : Prop :=
  ∀ s : State, s.params.Legal → s.MemoriesWf → s.PassReady → s.IndependentFields →
    ∃ t : State, exec .build s = .next t ∧
      ∀ c, c < 2 ^ s.x2.toNat → t.extract (tableRow c) s.x1.toNat s.x2.toNat = c

/-- 42_buildtable.md section 2, the sentence of R120 (an inference the spec marks as its own): when each pivot
row's field is its own unit bit, the table is indexed by the subset mask. -/
def Obligations.BuildOnIdentityBlockIndexesByMask : Prop :=
  ∀ s : State, s.params.Legal → s.PassReady → (∀ i, i < s.x2.toNat → s.pivotField i = 2 ^ i) →
    ∃ t : State, exec .build s = .next t ∧
      ∀ j, j < 2 ^ s.x2.toNat → (t.readZI j).toNat = j ∧
        ∀ w, s.Touched w → (t.readZ j w).toNat = s.subsetWord j w

/-- 42_buildtable.md R114 and the sentence of R121 on rows the loop never writes: whatever the pivot fields
are, a table row below `2^S` that is the field of no subset holds the zero fill. -/
def Obligations.BuildZeroFillsUnselectedRows : Prop :=
  ∀ s : State, s.params.Legal → s.PassReady → ∃ t : State, exec .build s = .next t ∧
    ∀ c, c < 2 ^ s.x2.toNat → (∀ j, j < 2 ^ s.x2.toNat → s.subsetField j ≠ c) →
      ∀ w, s.Touched w → t.readZ c w = 0

/-- 42_buildtable.md section 1, the last sentence of R123 (an inference the spec marks as its own): what `BUILD`
leaves in its range of `Z` and `z` is a function of `s`, `S`, `wds` and the words `k0 .. wds-1` of the `S`
pivot rows only, so not of what the memories held before, after reset or otherwise. -/
def Obligations.BuildDependsOnPivotRowsOnly : Prop :=
  ∀ s s' : State, s.params.Legal → s.PassReady → s'.PassReady →
    s'.params = s.params → s'.x1 = s.x1 → s'.x2 = s.x2 → s'.cfgWds = s.cfgWds →
    (∀ i w, i < s.x2.toNat → s.Touched w → s'.readM (s.x1.toNat + i) w = s.readM (s.x1.toNat + i) w) →
    ∃ t t' : State, exec .build s = .next t ∧ exec .build s' = .next t' ∧
      (∀ e w, e < 2 ^ s.x2.toNat → s.Touched w → t'.readZ e w = t.readZ e w) ∧
      (∀ j, j < 2 ^ s.x2.toNat → t'.readZI j = t.readZI j)

/-- 42_buildtable.md R111 after the common check of 60_exceptions.md R177: the three checks of `BUILD`, the same
in the same order for `ELIM` and `PASS`; the sums are exact. -/
def Obligations.WindowChecksInOrder : Prop :=
  ∀ (s : State) (i : Instr) (word : Word),
    (i = .build ∧ word = 0x00000003) ∨ (i = .elim ∧ word = 0x00000004) ∨ (i = .pass ∧ word = 0x00000005) →
    s.faulted = false →
    (¬ s.CanRun → exec i s = .next { s with status := 0x00000201, fcmd := word }) ∧
    (s.CanRun → (s.x2.toNat = 0 ∨ s.params.sMax < s.x2.toNat) →
      exec i s = .next { s with status := 0x00000301, fcmd := word }) ∧
    (s.CanRun → 1 ≤ s.x2.toNat → s.x2.toNat ≤ s.params.sMax →
      s.cfgWds.toNat * s.params.W < s.x1.toNat + s.x2.toNat →
      exec i s = .next { s with status := 0x00000401, fcmd := word }) ∧
    (s.CanRun → 1 ≤ s.x2.toNat → s.x2.toNat ≤ s.params.sMax →
      s.x1.toNat + s.x2.toNat ≤ s.cfgWds.toNat * s.params.W →
      s.cfgM.toNat < s.x1.toNat + s.x2.toNat →
      exec i s = .next { s with status := 0x00000501, fcmd := word })

/-! ## ELIM -/

/-- 43_eliminate.md section 1 and 2, the sentences of R133 and R135 (inferences the spec marks as its own):
`ELIM` answers a next state that differs only in `M`; a processed row is XORed in words `k0 .. wds-1` with
the table row its old field selects, whatever the table holds, and every other word of `M` is unchanged. -/
def Obligations.ElimXorsTheSelectedRow : Prop :=
  ∀ s : State, s.ElimReady → ∃ t : State, exec .elim s = .next t ∧ t = { s with M := t.M } ∧
    (∀ r w, s.Processed r → s.Touched w → t.readM r w =
      s.readM r w ^^^ s.readZ (s.extract (matrixRow r) s.x1.toNat s.x2.toNat) w) ∧
    (∀ a, (∀ r w, s.Processed r → s.Touched w → a ≠ r * s.params.wdsMax + w) → t.M.read a = s.M.read a)

/-- 43_eliminate.md section 2, the sentence of R134 (an inference the spec marks as its own): if every table
row's own field is its index, every processed row has a zero field after `ELIM`. -/
def Obligations.ElimZeroesTheField : Prop :=
  ∀ s : State, s.params.Legal → s.MemoriesWf → s.ElimReady →
    (∀ c, c < 2 ^ s.x2.toNat → s.extract (tableRow c) s.x1.toNat s.x2.toNat = c) →
    ∃ t : State, exec .elim s = .next t ∧
      ∀ r, s.Processed r → t.extract (matrixRow r) s.x1.toNat s.x2.toNat = 0

/-- 43_eliminate.md section 2, the first sentence of R136 (an inference the spec marks as its own): when every
processed row has a zero field and table row 0 is zero in words `k0 .. wds-1`, `ELIM` changes nothing. -/
def Obligations.ElimAgainChangesNothing : Prop :=
  ∀ s : State, s.MemoriesWf → s.ElimReady →
    (∀ r, s.Processed r → s.extract (matrixRow r) s.x1.toNat s.x2.toNat = 0) →
    (∀ w, s.Touched w → s.readZ 0 w = 0) → exec .elim s = .next s

/-- 43_eliminate.md R131 after the common check of 60_exceptions.md R177. -/
def Obligations.ElimChecksInOrder : Prop :=
  ∀ s : State, s.faulted = false →
    (¬ s.CanRun → exec .elim s = .next { s with status := 0x00000201, fcmd := 0x00000004 }) ∧
    (s.CanRun → (s.x2.toNat = 0 ∨ s.params.sMax < s.x2.toNat) →
      exec .elim s = .next { s with status := 0x00000301, fcmd := 0x00000004 }) ∧
    (s.CanRun → 1 ≤ s.x2.toNat → s.x2.toNat ≤ s.params.sMax →
      s.cfgWds.toNat * s.params.W < s.x1.toNat + s.x2.toNat →
      exec .elim s = .next { s with status := 0x00000401, fcmd := 0x00000004 }) ∧
    (s.CanRun → 1 ≤ s.x2.toNat → s.x2.toNat ≤ s.params.sMax →
      s.x1.toNat + s.x2.toNat ≤ s.cfgWds.toNat * s.params.W →
      s.cfgM.toNat < s.x1.toNat + s.x2.toNat →
      exec .elim s = .next { s with status := 0x00000501, fcmd := 0x00000004 }) ∧
    (s.PassReady → ¬ s.TagIsCurrent →
      exec .elim s = .next { s with status := 0x00000901, fcmd := 0x00000004 })

/-! ## PASS -/

/-- 44_pass.md section 1, the sentence of R149 (an inference the spec marks as its own): `PASS` leaves exactly
the state that `BUILD` and then `ELIM` leave with nothing between. -/
def Obligations.PassIsBuildThenElim : Prop :=
  ∀ s : State, s.params.Legal → s.PassReady →
    ∃ t u : State, exec .build s = .next t ∧ exec .elim t = .next u ∧ exec .pass s = .next u

/-- 44_pass.md, the end-to-end property of R150 (an inference the spec marks as its own): with linearly
independent pivot fields, after `PASS` every processed row has zero bits in columns `[s, s+S)` and equals,
in words `k0 .. wds-1`, its old value XOR the combination of pivot rows whose field is the row's old field;
every other word of `M` is unchanged, and only `M`, `Z`, `z` and the tag change. -/
def Obligations.PassEliminatesTheWindow : Prop :=
  ∀ s : State, s.params.Legal → s.MemoriesWf → s.PassReady → s.IndependentFields →
    let tag : Word := BitVec.ofNat 32 (2 ^ 31 + s.x2.toNat)
    ∃ t : State, exec .pass s = .next t ∧
      t = { s with M := t.M, Z := t.Z, zi := t.zi, tblOff := s.x1, tblCnt := tag } ∧
      (∀ r k, s.Processed r → k < s.x2.toNat → t.column (matrixRow r) (s.x1.toNat + k) = 0) ∧
      (∀ r, s.Processed r → ∃ j, j < 2 ^ s.x2.toNat ∧
        s.subsetField j = s.extract (matrixRow r) s.x1.toNat s.x2.toNat ∧
        ∀ w, s.Touched w → (t.readM r w).toNat = (s.readM r w).toNat ^^^ s.subsetWord j w) ∧
      (∀ a, (∀ r w, s.Processed r → s.Touched w → a ≠ r * s.params.wdsMax + w) →
        t.M.read a = s.M.read a)

/-- 43_eliminate.md section 2, the sentence of R137 (an inference the spec marks as its own): when the pivot rows
are zero in words `k0 .. wds-1`, a build and an elimination leave the matrix unchanged. -/
def Obligations.PassOnZeroPivotRowsKeepsTheMatrix : Prop :=
  ∀ s : State, s.params.Legal → s.MemoriesWf → s.PassReady →
    (∀ i w, i < s.x2.toNat → s.Touched w → s.readM (s.x1.toNat + i) w = 0) →
    ∃ t : State, exec .pass s = .next t ∧ t.M = s.M ∧ ∀ e w, e < 2 ^ s.x2.toNat → s.Touched w → t.readZ e w = 0

/-! ## Faults -/

/-- 60_exceptions.md R180: while `STATUS.FAULT = 1` a write to `CMD`, of any word, changes no state but the
host's list. -/
def Obligations.FaultedBlockDropsCommands : Prop :=
  ∀ (s : State) (c : Word) (rest : List HostOp), s.faulted = true → s.pending = .regWrite 0x24 c :: rest →
    step s = .next { s with pending := rest }

/-- 60_exceptions.md section 3 (the second and third sentence of R180): over a run of any length in which the
host neither clears the fault nor resets, the recorded fault, the table, the membership array and the
recorded window stay. -/
def Obligations.FaultStaysUntilCleared : Prop :=
  ∀ (k : Nat) (s t : State), s.faulted = true → (∀ op ∈ s.pending, clearsFault op = false) →
    Host.Core.run Sys2Proof.core k s = .next t →
    t.status = s.status ∧ t.fcmd = s.fcmd ∧ t.Z = s.Z ∧ t.zi = s.zi ∧ t.tblOff = s.tblOff

/-- 60_exceptions.md section 2 and 3 (the sentences of R181 and R182): a command that raises a fault has had no
effect but the record of one of the causes 2 to 9 and of its own word. -/
def Obligations.FaultingCommandHasNoOtherEffect : Prop :=
  ∀ (i : Instr) (s t : State), s.faulted = false → exec i s = .next t → t.faulted = true →
    ∃ n, 2 ≤ n ∧ n ≤ 9 ∧ t = { s with status := BitVec.ofNat 32 (256 * n + 1), fcmd := encode i }

/-- 45_host_access.md R167: a write of `STATUS` with bit 0 set clears `FAULT` and `CAUSE` and nothing else, with
bit 0 clear it does nothing, and no step clears a fault but such a write or a reset. -/
def Obligations.StatusWriteClearsTheFault : Prop :=
  (∀ (s : State) (v : Word) (rest : List HostOp), s.pending = .regWrite 0x14 v :: rest →
    step s = .next (if v.getLsbD 0 then { s with pending := rest, status := 0 }
      else { s with pending := rest })) ∧
  ∀ s t : State, s.faulted = true → step s = .next t → t.faulted = false →
    ∃ op rest, s.pending = op :: rest ∧ clearsFault op = true

/-! ## Host registers and memory access -/

/-- 45_host_access.md R166: a write of `CFG_M` or `CFG_WDS` stores any value and clears `TBL.VALID`, and nothing
else; the fields `s` and `S` of the tag keep their values. -/
def Obligations.ConfigWriteClearsTheTag : Prop :=
  ∀ (s : State) (v : Word) (rest : List HostOp),
    (s.pending = .regWrite 0x0C v :: rest → ∃ t, step s = .next t ∧
      t = { s with pending := rest, cfgM := v, tblCnt := t.tblCnt } ∧ t.tblValid = false ∧
      ∀ b, b < 31 → t.tblCnt.getLsbD b = s.tblCnt.getLsbD b) ∧
    (s.pending = .regWrite 0x10 v :: rest → ∃ t, step s = .next t ∧
      t = { s with pending := rest, cfgWds := v, tblCnt := t.tblCnt } ∧ t.tblValid = false ∧
      ∀ b, b < 31 → t.tblCnt.getLsbD b = s.tblCnt.getLsbD b)

/-- 45_host_access.md section 1 (R157) and 10_state.md sections 2 and 5 (R23, R26, R37): a write of `X0` to `X4`
stores any value; a write of a read-only or reserved offset does nothing; both whether or not a fault is
recorded. -/
def Obligations.OperandAndReadOnlyRegisterWrites : Prop :=
  ∀ (s : State) (off : Nat) (v : Word) (rest : List HostOp), s.pending = .regWrite off v :: rest →
    off % 4 = 0 → off ≤ 0xFC → off ≠ 0x0C → off ≠ 0x10 → off ≠ 0x14 → off ≠ 0x24 →
    step s = .next
      (if off = 0x40 then { s with pending := rest, x0 := v }
       else if off = 0x44 then { s with pending := rest, x1 := v }
       else if off = 0x48 then { s with pending := rest, x2 := v }
       else if off = 0x4C then { s with pending := rest, x3 := v }
       else if off = 0x50 then { s with pending := rest, x4 := v }
       else { s with pending := rest })

/-- 45_host_access.md R156 with the layouts of 10_state.md R27 to R35: what a read of each register offset
returns, and that it changes nothing in the block. The reserved bits of `STATUS` and `TBL_CNT` read 0. -/
def Obligations.RegisterReadMap : Prop :=
  ∀ (s : State) (off : Nat) (rest : List HostOp), s.params.Legal → s.pending = .regRead off :: rest →
    off % 4 = 0 → off ≤ 0xFC →
    let v : Word :=
      if off = 0x00 then 0x544D4154
      else if off = 0x04 then BitVec.ofNat 32 (s.params.W + 2 ^ 8 * s.params.sMax)
      else if off = 0x08 then BitVec.ofNat 32 (s.params.wdsMax + 2 ^ 16 * s.params.mMax)
      else if off = 0x0C then s.cfgM
      else if off = 0x10 then s.cfgWds
      else if off = 0x14 then s.status &&& 0x0000FF01
      else if off = 0x18 then s.fcmd
      else if off = 0x1C then s.tblOff
      else if off = 0x20 then s.tblCnt &&& 0x800000FF
      else if off = 0x40 then s.x0
      else if off = 0x44 then s.x1
      else if off = 0x48 then s.x2
      else if off = 0x4C then s.x3
      else if off = 0x50 then s.x4
      else 0
    step s = .next { s with pending := rest, answers := s.answers ++ [v] }

/-- 45_host_access.md R160: a host write stores one word of `M` and changes nothing else, whether or not a fault
is recorded. -/
def Obligations.MatrixWriteStoresOneWord : Prop :=
  ∀ (s : State) (idx : Nat) (v : Word) (rest : List HostOp), s.pending = .hostWrite .M idx v :: rest →
    idx < s.params.mMax * s.params.wdsMax → v.toNat < 2 ^ s.params.W →
    ∃ t, step s = .next t ∧ t = { s with pending := rest, M := t.M } ∧
      t.readM (idx / s.params.wdsMax) (idx % s.params.wdsMax) = v ∧
      ∀ a, a ≠ idx → t.M.read a = s.M.read a

/-- 45_host_access.md R159 and R161: a host read returns the word, or the `z` entry, at its index and changes
nothing in the block. -/
def Obligations.HostReadsReturnTheWord : Prop :=
  ∀ (s : State) (idx : Nat) (rest : List HostOp),
    let row := idx / s.params.wdsMax
    let word := idx % s.params.wdsMax
    (s.pending = .hostRead .M idx :: rest → idx < s.params.mMax * s.params.wdsMax →
      step s = .next { s with pending := rest, answers := s.answers ++ [s.readM row word] }) ∧
    (s.pending = .hostRead .Z idx :: rest → idx < 2 ^ s.params.sMax * s.params.wdsMax →
      step s = .next { s with pending := rest, answers := s.answers ++ [s.readZ row word] }) ∧
    (s.pending = .hostRead .ZI idx :: rest → idx < 2 ^ s.params.sMax →
      step s = .next { s with pending := rest, answers := s.answers ++ [s.readZI idx] })

/-- 10_state.md section 9 and 70_reset_and_hazards.md section 1 (R43, R200, R201): a reset puts every register
to 0 from any state, whatever contents it leaves in the memories. That the operation carries those contents
is the model's choice (notes/assumptions/8.md). -/
def Obligations.ResetClearsEveryRegister : Prop :=
  ∀ (s : State) (c : Contents) (rest : List HostOp), s.pending = .reset c :: rest →
    c.wf s.params = true →
    step s = .next
      { params := s.params
        x0 := 0
        x1 := 0
        x2 := 0
        x3 := 0
        x4 := 0
        cfgM := 0
        cfgWds := 0
        status := 0
        fcmd := 0
        tblOff := 0
        tblCnt := 0
        M := c.M
        Z := c.Z
        zi := c.zi
        pending := rest
        answers := s.answers }

/-! ## Invariants and rules of the whole machine -/

/-- 10_state.md sections 5 and 7 (R32, R35, R38 to R40): every step keeps the invariant, on every legal instance
and whatever the host does. -/
def Obligations.StepKeepsTheInvariant : Prop :=
  ∀ s t : State, s.Invariant → step s = .next t → t.Invariant ∧ t.params = s.params

/-- 10_state.md section 9 (R43): the invariant holds right after reset, whatever the memories then hold, and so
at the model's `State.reset` (notes/assumptions/2.md). -/
def Obligations.InvariantHoldsAfterReset : Prop :=
  (∀ (p : Params) (c : Contents), p.Legal → c.wf p = true → (State.resetWith p c).Invariant) ∧
    State.reset.Invariant

/-- 10_state.md sections 2 to 7 (R22, R30, R31, R34, R38 to R40): every command answers a next state, and what no
command, or only some commands, may write is unchanged in it. -/
def Obligations.CommandsAnswerWithinTheirFrame : Prop :=
  ∀ (i : Instr) (s : State), ∃ t : State, exec i s = .next t ∧
    t.x1 = s.x1 ∧ t.x2 = s.x2 ∧ t.x3 = s.x3 ∧ t.x4 = s.x4 ∧ t.cfgM = s.cfgM ∧ t.cfgWds = s.cfgWds ∧
    t.params = s.params ∧ t.pending = s.pending ∧ t.answers = s.answers ∧
    (i ≠ .extract → t.x0 = s.x0) ∧
    (i ≠ .build → i ≠ .pass → t.zi = s.zi ∧ t.tblOff = s.tblOff ∧ t.tblCnt = s.tblCnt) ∧
    (i = .extract ∨ i = .build → t.M = s.M) ∧
    (i = .extract ∨ i = .elim → t.Z = s.Z) ∧
    (s.faulted = true ∨ t.faulted = false → t.status = s.status ∧ t.fcmd = s.fcmd) ∧
    (t.faulted = true → t.x0 = s.x0 ∧ t.M = s.M ∧ t.Z = s.Z ∧ t.zi = s.zi ∧ t.tblOff = s.tblOff ∧
      t.tblCnt = s.tblCnt)

/-- 10_state.md section 7, the sentence of R38 on rows at or above `m` and words at or above `wds`: no command
reads them (two states that differ only there give results that differ only there) and no command writes
them. -/
def Obligations.UnusedMatrixWordsStayOut : Prop :=
  ∀ (i : Instr) (s : State) (M' : Memory),
    (∀ r w, r < s.cfgM.toNat → w < s.cfgWds.toNat →
      M'.read (r * s.params.wdsMax + w) = s.M.read (r * s.params.wdsMax + w)) →
    ∃ t t' : State, exec i s = .next t ∧ exec i { s with M := M' } = .next t' ∧ t' = { t with M := t'.M } ∧
      (∀ r w, r < s.cfgM.toNat → w < s.cfgWds.toNat → t'.readM r w = t.readM r w) ∧
      ∀ r w, w < s.params.wdsMax → (s.cfgM.toNat ≤ r ∨ s.cfgWds.toNat ≤ w) →
        t.readM r w = s.readM r w ∧ t'.readM r w = M'.read (r * s.params.wdsMax + w)

/-- 45_host_access.md section 1, the sentence of R162: a step that changes `z` is a write of the word of `BUILD` or
`PASS` to `CMD`, or a reset; one that changes `Z` is one of these or a write of the word of `XORROW`. -/
def Obligations.TableWrittenOnlyByItsCommands : Prop :=
  ∀ s t : State, step s = .next t →
    (t.zi ≠ s.zi → ∃ op rest, s.pending = op :: rest ∧
      (op = .regWrite 0x24 3 ∨ op = .regWrite 0x24 5 ∨ ∃ c, op = .reset c)) ∧
    (t.Z ≠ s.Z → ∃ op rest, s.pending = op :: rest ∧
      (op = .regWrite 0x24 2 ∨ op = .regWrite 0x24 3 ∨ op = .regWrite 0x24 5 ∨ ∃ c, op = .reset c))
end

