-- ==== Sys2Proof/Laws/Command.lean ====
section
/-! SUPPORT. What the frame of a command can answer, and the checks of the commands in plain arithmetic. -/

namespace Sys2Proof.Machine

variable {word : Word} {checks : State → List (Bool × Cause)} {effect : State → State}

/-- Taking the exception records it (10_state.md R32). -/
@[simp] theorem State.raise_faulted (s : State) (cause : Cause) (word : Word) :
    (s.raise cause word).faulted = true := by
  change (faultStatus cause).getLsbD 0 = true
  cases cause <;> decide

/-- The return from the exception leaves none recorded (60_exceptions.md R183). -/
@[simp] theorem State.clearFault_faulted (s : State) : s.clearFault.faulted = false := by
  change (0 : Word).getLsbD 0 = false
  decide

/-- A check that fails decides the cause, one that passes leaves it to the rest (60_exceptions.md R178). -/
theorem firstCause_cons (ok : Bool) (cause : Cause) (rest : List (Bool × Cause)) :
    firstCause ((ok, cause) :: rest) = if ok = true then firstCause rest else some cause := rfl

/-- The common check decides before the command's own (60_exceptions.md R177). -/
theorem firstCause_cfgCheck (s : State) (rest : List (Bool × Cause)) :
    firstCause (cfgCheck s :: rest) = if (cfgCheck s).1 = true then firstCause rest else some .cfgRange := rfl

/-- A list of checks names no cause exactly when every check of it passes. -/
theorem firstCause_eq_none {l : List (Bool × Cause)} : firstCause l = none ↔ ∀ p ∈ l, p.1 = true := by
  induction l with
  | nil => simp [firstCause]
  | cons p rest ih =>
    obtain ⟨ok, cause⟩ := p
    cases ok <;> simp [firstCause, ih]

/-- While a fault is recorded the command is dropped (60_exceptions.md R180). -/
theorem command_of_faulted {s : State} (h : s.faulted = true) : command word checks effect s = .next s := by
  simp [command, h]

/-- A failing check is taken as an exception (60_exceptions.md R181). -/
theorem command_of_cause {s : State} {cause : Cause} (h : s.faulted = false)
    (hc : firstCause (cfgCheck s :: checks s) = some cause) :
    command word checks effect s = .next (s.raise cause word) := by
  simp [command, h, hc]

/-- With every check passed the effect happens (30_encoding.md R81). -/
theorem command_of_none {s : State} (h : s.faulted = false)
    (hc : firstCause (cfgCheck s :: checks s) = none) :
    command word checks effect s = .next (effect s) := by
  simp [command, h, hc]

/-- ALL that a command can answer: dropped, an exception, or its effect. -/
theorem command_cases {s t : State} (h : command word checks effect s = .next t) :
    (s.faulted = true ∧ t = s) ∨
    (s.faulted = false ∧ ∃ cause, firstCause (cfgCheck s :: checks s) = some cause ∧ t = s.raise cause word) ∨
    (s.faulted = false ∧ firstCause (cfgCheck s :: checks s) = none ∧ t = effect s) := by
  unfold command at h
  split at h
  · next hf => exact .inl ⟨hf, by cases h; rfl⟩
  · next hf =>
    have hf' : s.faulted = false := by simpa using hf
    split at h
    · next cause hc => exact .inr (.inl ⟨hf', cause, hc, by cases h; rfl⟩)
    · next hc => exact .inr (.inr ⟨hf', hc, by cases h; rfl⟩)

/-! ## The checks in plain arithmetic -/

theorem cfgCheck_fst (s : State) :
    (cfgCheck s).1 = true ↔ s.cfgM.toNat ≤ s.params.mMax ∧ s.cfgWds.toNat ≤ s.params.wdsMax := by
  simp [cfgCheck]

/-- Bit 31 of a value is clear exactly when the value is below `2^31`. -/
theorem getLsbD_31_eq_false (v : Word) : v.getLsbD 31 = false ↔ v.toNat < 2147483648 := by
  have hv := v.isLt
  rw [BitVec.getLsbD, Nat.testBit_eq_decide_div_mod_eq]
  simp only [decide_eq_false_iff_not]
  omega

/-- A reference is valid exactly when it names an existing row (30_encoding.md R77). -/
theorem State.refValid_iff (s : State) (v : Word) : s.refValid v = true ↔ s.NamesRow v := by
  have h16 : v.extractLsb' 16 15 = 0 ↔ v.toNat / 65536 % 32768 = 0 := by
    rw [← BitVec.toNat_inj, BitVec.extractLsb'_toNat, Nat.shiftRight_eq_div_pow]
    simp
  have h0 : (v.extractLsb' 0 16).toNat = v.toNat % 65536 := by
    rw [BitVec.extractLsb'_toNat]; simp
  unfold State.refValid rowRef State.NamesRow
  simp only [Bool.and_eq_true, decide_eq_true_eq, h16, h0]
  by_cases hb : v.toNat < 2147483648
  · rw [(getLsbD_31_eq_false v).2 hb, if_pos hb, if_neg Bool.false_ne_true]
  · have hb' : v.getLsbD 31 = true := by
      cases hv : v.getLsbD 31 with
      | true => rfl
      | false => exact absurd ((getLsbD_31_eq_false v).1 hv) hb
    rw [hb', if_neg hb, if_pos rfl]

/-- A field exists exactly when it satisfies the preconditions of 40_extract.md R92. -/
theorem State.fieldExists_iff (s : State) (offset length : Nat) :
    s.fieldExists offset length = true ↔ s.FieldOk offset length := by
  unfold State.fieldExists State.rowBits State.wds
  rw [Bool.and_eq_true, Bool.and_eq_true, decide_eq_true_eq, decide_eq_true_eq, decide_eq_true_eq, and_assoc]

/-- The check of the table tag (43_eliminate.md R131). -/
theorem State.tagMatches_iff (s : State) : s.tagMatches = true ↔ s.TagIsCurrent := by
  unfold State.tagMatches State.tblOffset State.pivotOffset State.pivotCount
  rw [Bool.and_eq_true, Bool.and_eq_true, decide_eq_true_eq, decide_eq_true_eq, and_assoc]

end Sys2Proof.Machine
end

