-- ==== Sys2Proof/Laws/Extract.lean ====
section
/-! SUPPORT. Facts about `extract` where its preconditions hold (40_extract.md R92, R95). -/

namespace Sys2Proof.Machine

/-- The mask bounds the field (40_extract.md R92). -/
theorem fieldFormula_lt (W : Nat) (row : Nat → Nat) (offset length : Nat) :
    fieldFormula W row offset length < 2 ^ length := by
  simp only [fieldFormula, Nat.and_two_pow_sub_one_eq_mod]
  exact Nat.mod_lt _ (Nat.two_pow_pos length)

/-- Where the preconditions hold, `extract` is the formula (40_extract.md R92). -/
theorem State.extract_eq_formula {s : State} {ref : RowRef} {offset length : Nat} (h : s.FieldOk offset length) :
    s.extract ref offset length =
      fieldFormula s.params.W (fun w => (s.readRow ref w).toNat) offset length := by
  rw [State.extract, if_pos ((s.fieldExists_iff offset length).2 h)]

theorem State.extract_lt {s : State} {ref : RowRef} {offset length : Nat} (h : s.FieldOk offset length) :
    s.extract ref offset length < 2 ^ length := by
  rw [State.extract_eq_formula h]
  exact fieldFormula_lt ..

/-- The words a field is read from: both lie between the word of `offset` and the row's last word in use
(40_extract.md R95 (a), (d)). -/
theorem field_words {W wds offset length : Nat} (hl : 1 ≤ length) (hlW : length ≤ W)
    (h : offset + length ≤ wds * W) :
    offset / W < wds ∧ (offset + length - 1) / W < wds ∧ offset / W ≤ (offset + length - 1) / W ∧
      (offset + length - 1) / W ≤ offset / W + 1 := by
  have hW : 0 < W := by omega
  refine ⟨(Nat.div_lt_iff_lt_mul hW).2 (by omega), (Nat.div_lt_iff_lt_mul hW).2 (by omega),
    Nat.div_le_div_right (by omega), ?_⟩
  rw [← Nat.add_div_right _ hW]
  exact Nat.div_le_div_right (by omega)

/-- `extract` depends only on the words of the row from the word of `offset` on, below `wds`, and on the
configuration. -/
theorem State.extract_congr {s t : State} {ref ref' : RowRef} {offset length : Nat}
    (hp : t.params = s.params) (hw : t.cfgWds = s.cfgWds)
    (hr : ∀ w, offset / s.params.W ≤ w → w < s.cfgWds.toNat → t.readRow ref' w = s.readRow ref w) :
    t.extract ref' offset length = s.extract ref offset length := by
  have hf : t.fieldExists offset length = s.fieldExists offset length := by
    unfold State.fieldExists State.rowBits State.wds
    rw [hp, hw]
  unfold State.extract
  rw [hf]
  split
  · next h =>
    obtain ⟨h1, h2, h3⟩ := (s.fieldExists_iff offset length).1 h
    obtain ⟨hw0, hw1, hle, -⟩ := field_words h1 h2 h3
    unfold fieldFormula
    simp only [hp, hr _ le_rfl hw0, hr _ hle hw1]
  · rfl

end Sys2Proof.Machine
end

