-- ==== Sys2Proof/Laws/Loop.lean ====
section
/-! SUPPORT. The counted loop: its ends, its last turn and its induction (00_scope.md R16). -/

namespace Sys2Proof.Machine

variable {σ : Type}

theorem forCount_succ_last (n a : Nat) (body : Nat → σ → σ) (s : σ) :
    forCount (n + 1) a body s = body (a + n) (forCount n a body s) := by
  induction n generalizing a s with
  | zero => rfl
  | succ k ih =>
    rw [forCount, ih, forCount]
    congr 1
    omega

/-- A loop is empty when its end is not above its start. -/
theorem forRange_of_le {a b : Nat} (h : b ≤ a) (body : Nat → σ → σ) (s : σ) : forRange a b body s = s := by
  rw [forRange, Nat.sub_eq_zero_of_le h, forCount]

/-- The last turn of a loop. -/
theorem forRange_succ_last {a b : Nat} (h : a ≤ b) (body : Nat → σ → σ) (s : σ) :
    forRange a (b + 1) body s = body b (forRange a b body s) := by
  rw [forRange, Nat.succ_sub h, forCount_succ_last, forRange]
  congr 1
  omega

/-- The first turn of a loop. -/
theorem forRange_first {a b : Nat} (h : a < b) (body : Nat → σ → σ) (s : σ) :
    forRange a b body s = forRange (a + 1) b body (body a s) := by
  obtain ⟨n, rfl⟩ : ∃ n, b = a + 1 + n := ⟨b - (a + 1), by omega⟩
  rw [forRange, forRange, show a + 1 + n - a = n + 1 by omega, forCount]
  congr 1
  omega

/-- The loop is the left fold of its turns over the values of its variable, in their order. -/
theorem forRange_eq_foldl (a b : Nat) (body : Nat → σ → σ) (s : σ) :
    forRange a b body s = (List.range' a (b - a)).foldl (fun t i => body i t) s := by
  rw [forRange]
  induction b - a generalizing a s with
  | zero => rfl
  | succ k ih => exact ih (a + 1) (body a s)

/-- Induction over a loop: a property of the turn number and the value, true at the start and kept by every turn
of the range, holds at the end. -/
theorem forRange_induction {a b : Nat} {body : Nat → σ → σ} {s : σ} (motive : Nat → σ → Prop)
    (start : motive a s)
    (turn : ∀ i t, a ≤ i → i < b → motive i t → motive (i + 1) (body i t)) :
    motive (max a b) (forRange a b body s) := by
  rcases Nat.le_total b a with h | h
  · rw [forRange_of_le h, Nat.max_eq_left h]
    exact start
  · rw [Nat.max_eq_right h]
    obtain ⟨n, rfl⟩ : ∃ n, b = a + n := ⟨b - a, by omega⟩
    clear h
    induction n with
    | zero =>
      rw [Nat.add_zero, forRange_of_le le_rfl]
      exact start
    | succ k ih =>
      rw [← Nat.add_assoc, forRange_succ_last (by omega)]
      exact turn _ _ (by omega) (by omega) (ih fun i t h1 h2 => turn i t h1 (by omega))

/-- A property of the value alone that every turn keeps holds after the loop. -/
theorem forRange_keeps {a b : Nat} {body : Nat → σ → σ} {s : σ} {P : σ → Prop} (start : P s)
    (turn : ∀ i t, a ≤ i → i < b → P t → P (body i t)) : P (forRange a b body s) :=
  forRange_induction (fun _ t => P t) start turn

end Sys2Proof.Machine
end

