-- ==== Sys2Proof/Laws/Memory.lean ====
section
/-! SUPPORT. What reading and writing one location do, and the canonical form: every operation keeps it, and
two memories in it that read alike are equal data. -/

namespace Sys2Proof

/-! ## Read after write -/

theorem Memory.read_erase (m : Memory) (a b : Nat) :
    (m.erase a).read b = if b = a then Memory.unlisted else m.read b := by
  induction m with
  | nil => simp [Memory.erase, Memory.read]
  | cons c rest ih =>
    obtain ⟨k, u⟩ := c
    by_cases hk : a = k
    · subst hk
      by_cases hb : b = a <;> simp_all [Memory.erase, Memory.read]
    · by_cases hb : b = k
      · subst hb
        have : ¬ b = a := fun h => hk h.symm
        simp [Memory.erase, Memory.read, hk, this]
      · simp [Memory.erase, Memory.read, hk, hb, ih]

theorem Memory.read_insert (m : Memory) (a b : Nat) (v : Word) :
    (m.insert a v).read b = if b = a then v else m.read b := by
  induction m with
  | nil => simp [Memory.insert, Memory.read]
  | cons c rest ih =>
    obtain ⟨k, u⟩ := c
    by_cases hlt : a < k
    · simp [Memory.insert, Memory.read, hlt]
    · by_cases hk : a = k
      · subst hk
        by_cases hb : b = a <;> simp [Memory.insert, Memory.read, hb]
      · by_cases hb : b = k
        · subst hb
          have : ¬ b = a := fun h => hk h.symm
          simp [Memory.insert, Memory.read, hlt, hk, this]
        · simp [Memory.insert, Memory.read, hlt, hk, hb, ih]

/-- All that a write does: the location reads as written, every other as before (20_memory.md R58). -/
theorem Memory.read_write (m : Memory) (a b : Nat) (v : Word) :
    (m.write a v).read b = if b = a then v else m.read b := by
  unfold Memory.write
  split
  · next h => rw [Memory.read_erase, h]
  · rw [Memory.read_insert]

@[simp] theorem Memory.read_write_same (m : Memory) (a : Nat) (v : Word) : (m.write a v).read a = v := by
  simp [Memory.read_write]

theorem Memory.read_write_other (m : Memory) {a b : Nat} (v : Word) (h : b ≠ a) :
    (m.write a v).read b = m.read b := by
  simp [Memory.read_write, h]

/-! ## The canonical form -/

theorem Memory.wfFrom_cons {lo size width k : Nat} {u : Word} {rest : Memory} :
    Memory.wfFrom lo size width ((k, u) :: rest) = true ↔
      lo ≤ k ∧ k < size ∧ u ≠ Memory.unlisted ∧ u.toNat < 2 ^ width ∧
        Memory.wfFrom (k + 1) size width rest = true := by
  simp [Memory.wfFrom, and_assoc]

theorem Memory.wfFrom_mono {lo lo' size width : Nat} {m : Memory} (hlo : lo ≤ lo')
    (h : Memory.wfFrom lo' size width m = true) : Memory.wfFrom lo size width m = true := by
  cases m with
  | nil => rfl
  | cons c rest =>
    obtain ⟨k, u⟩ := c
    rw [Memory.wfFrom_cons] at h ⊢
    exact ⟨hlo.trans h.1, h.2⟩

theorem Memory.wfFrom_erase {lo size width : Nat} {m : Memory} (a : Nat)
    (h : Memory.wfFrom lo size width m = true) : Memory.wfFrom lo size width (m.erase a) = true := by
  induction m generalizing lo with
  | nil => rfl
  | cons c rest ih =>
    obtain ⟨k, u⟩ := c
    rw [Memory.wfFrom_cons] at h
    unfold Memory.erase
    split
    · exact ih (Memory.wfFrom_mono (Nat.le_succ_of_le h.1) h.2.2.2.2)
    · exact Memory.wfFrom_cons.2 ⟨h.1, h.2.1, h.2.2.1, h.2.2.2.1, ih h.2.2.2.2⟩

theorem Memory.wfFrom_insert {lo size width a : Nat} {v : Word} {m : Memory} (hlo : lo ≤ a) (ha : a < size)
    (hv : v ≠ Memory.unlisted) (hw : v.toNat < 2 ^ width) (h : Memory.wfFrom lo size width m = true) :
    Memory.wfFrom lo size width (m.insert a v) = true := by
  induction m generalizing lo with
  | nil => exact Memory.wfFrom_cons.2 ⟨hlo, ha, hv, hw, rfl⟩
  | cons c rest ih =>
    obtain ⟨k, u⟩ := c
    have h' := Memory.wfFrom_cons.1 h
    unfold Memory.insert
    split
    · next hlt =>
      exact Memory.wfFrom_cons.2 ⟨hlo, ha, hv, hw, Memory.wfFrom_cons.2 ⟨hlt, h'.2⟩⟩
    · next hlt =>
      split
      · next hk => exact Memory.wfFrom_cons.2 ⟨hlo, ha, hv, hw, hk ▸ h'.2.2.2.2⟩
      · next hk =>
        exact Memory.wfFrom_cons.2 ⟨h'.1, h'.2.1, h'.2.2.1, h'.2.2.2.1, ih (by omega) h'.2.2.2.2⟩

/-- A write inside the memory of a value of its width keeps the canonical form. -/
theorem Memory.wf_write {size width a : Nat} {v : Word} {m : Memory} (h : Memory.wf size width m = true)
    (ha : a < size) (hw : v.toNat < 2 ^ width) : Memory.wf size width (m.write a v) = true := by
  unfold Memory.write
  split
  · exact Memory.wfFrom_erase a h
  · next hv => exact Memory.wfFrom_insert (Nat.zero_le a) ha hv hw h

theorem Memory.wf_nil (size width : Nat) : Memory.wf size width [] = true := rfl

theorem Memory.read_of_wfFrom_lt {lo size width a : Nat} {m : Memory}
    (h : Memory.wfFrom lo size width m = true) (ha : a < lo) : m.read a = Memory.unlisted := by
  induction m generalizing lo with
  | nil => rfl
  | cons c rest ih =>
    obtain ⟨k, u⟩ := c
    have h' := Memory.wfFrom_cons.1 h
    have hak : ¬ a = k := by omega
    simp only [Memory.read, hak, if_false]
    exact ih h'.2.2.2.2 (by omega)

/-- Every word of a canonical memory has the memory's width. -/
theorem Memory.read_lt_of_wf {size width : Nat} {m : Memory} (h : Memory.wf size width m = true) (a : Nat) :
    (m.read a).toNat < 2 ^ width := by
  unfold Memory.wf at h
  generalize 0 = lo at h
  induction m generalizing lo with
  | nil => simp [Memory.read, Memory.unlisted]
  | cons c rest ih =>
    obtain ⟨k, u⟩ := c
    have h' := Memory.wfFrom_cons.1 h
    unfold Memory.read
    split
    · exact h'.2.2.2.1
    · exact ih (k + 1) h'.2.2.2.2

/-- A location outside a canonical memory is not listed. -/
theorem Memory.read_of_size_le {size width a : Nat} {m : Memory} (h : Memory.wf size width m = true)
    (ha : size ≤ a) : m.read a = Memory.unlisted := by
  unfold Memory.wf at h
  generalize 0 = lo at h
  induction m generalizing lo with
  | nil => rfl
  | cons c rest ih =>
    obtain ⟨k, u⟩ := c
    have h' := Memory.wfFrom_cons.1 h
    have hak : ¬ a = k := by omega
    simp only [Memory.read, hak, if_false]
    exact ih (k + 1) h'.2.2.2.2

theorem Memory.ext_of_wfFrom {lo size width : Nat} {m m' : Memory}
    (h : Memory.wfFrom lo size width m = true) (h' : Memory.wfFrom lo size width m' = true)
    (hr : ∀ a, m.read a = m'.read a) : m = m' := by
  induction m generalizing lo m' with
  | nil =>
    cases m' with
    | nil => rfl
    | cons c rest =>
      obtain ⟨k, u⟩ := c
      have := hr k
      simp only [Memory.read, if_true] at this
      exact absurd this.symm (Memory.wfFrom_cons.1 h').2.2.1
  | cons c rest ih =>
    obtain ⟨k, u⟩ := c
    have hc := Memory.wfFrom_cons.1 h
    cases m' with
    | nil =>
      have := hr k
      simp only [Memory.read, if_true] at this
      exact absurd this hc.2.2.1
    | cons c' rest' =>
      obtain ⟨k', u'⟩ := c'
      have hc' := Memory.wfFrom_cons.1 h'
      have hk : k = k' := by
        rcases Nat.lt_trichotomy k k' with hlt | heq | hgt
        · have h1 := hr k
          rw [Memory.read_of_wfFrom_lt (Memory.wfFrom_cons.2 ⟨le_refl k', hc'.2⟩) hlt] at h1
          simp only [Memory.read, if_true] at h1
          exact absurd h1 hc.2.2.1
        · exact heq
        · have h1 := hr k'
          rw [Memory.read_of_wfFrom_lt (Memory.wfFrom_cons.2 ⟨le_refl k, hc.2⟩) hgt] at h1
          simp only [Memory.read, if_true] at h1
          exact absurd h1.symm hc'.2.2.1
      subst hk
      have hu : u = u' := by simpa [Memory.read] using hr k
      subst hu
      rw [ih hc.2.2.2.2 hc'.2.2.2.2]
      intro a
      by_cases ha : a = k
      · subst ha
        rw [Memory.read_of_wfFrom_lt hc.2.2.2.2 (Nat.lt_succ_self a),
          Memory.read_of_wfFrom_lt hc'.2.2.2.2 (Nat.lt_succ_self a)]
      · simpa [Memory.read, ha] using hr a

/-- Equal memories are equal data. -/
theorem Memory.ext_of_wf {size width : Nat} {m m' : Memory} (h : Memory.wf size width m = true)
    (h' : Memory.wf size width m' = true) (hr : ∀ a, m.read a = m'.read a) : m = m' :=
  Memory.ext_of_wfFrom h h' hr

/-- Writing what a location of a canonical memory already holds changes no data. -/
theorem Memory.write_read_self {size width : Nat} {m : Memory} (h : Memory.wf size width m = true) (a : Nat) :
    m.write a (m.read a) = m := by
  have hr : ∀ b, (m.write a (m.read a)).read b = m.read b := by
    intro b
    rw [Memory.read_write]
    split
    · next hb => rw [hb]
    · rfl
  rcases Nat.lt_or_ge a size with ha | ha
  · exact Memory.ext_of_wf (Memory.wf_write h ha (Memory.read_lt_of_wf h a)) h hr
  · refine Memory.ext_of_wf ?_ h hr
    rw [Memory.read_of_size_le h ha, Memory.write, if_pos rfl]
    exact Memory.wfFrom_erase a h

end Sys2Proof
end

