-- ==== Sys2Proof/Laws/State.lean ====
section
/-! SUPPORT. One lemma per field per update of the state, so that no later proof unfolds a record update. -/

namespace Sys2Proof.Machine

/-! ## Words of the matrix memory -/

@[simp] theorem State.writeM_params (s : State) (r w : Nat) (v : Word) :
    (s.writeM r w v).params = s.params := rfl
@[simp] theorem State.writeM_x0 (s : State) (r w : Nat) (v : Word) : (s.writeM r w v).x0 = s.x0 := rfl
@[simp] theorem State.writeM_x1 (s : State) (r w : Nat) (v : Word) : (s.writeM r w v).x1 = s.x1 := rfl
@[simp] theorem State.writeM_x2 (s : State) (r w : Nat) (v : Word) : (s.writeM r w v).x2 = s.x2 := rfl
@[simp] theorem State.writeM_x3 (s : State) (r w : Nat) (v : Word) : (s.writeM r w v).x3 = s.x3 := rfl
@[simp] theorem State.writeM_x4 (s : State) (r w : Nat) (v : Word) : (s.writeM r w v).x4 = s.x4 := rfl
@[simp] theorem State.writeM_cfgM (s : State) (r w : Nat) (v : Word) : (s.writeM r w v).cfgM = s.cfgM := rfl
@[simp] theorem State.writeM_cfgWds (s : State) (r w : Nat) (v : Word) :
    (s.writeM r w v).cfgWds = s.cfgWds := rfl
@[simp] theorem State.writeM_status (s : State) (r w : Nat) (v : Word) :
    (s.writeM r w v).status = s.status := rfl
@[simp] theorem State.writeM_fcmd (s : State) (r w : Nat) (v : Word) : (s.writeM r w v).fcmd = s.fcmd := rfl
@[simp] theorem State.writeM_tblOff (s : State) (r w : Nat) (v : Word) :
    (s.writeM r w v).tblOff = s.tblOff := rfl
@[simp] theorem State.writeM_tblCnt (s : State) (r w : Nat) (v : Word) :
    (s.writeM r w v).tblCnt = s.tblCnt := rfl
@[simp] theorem State.writeM_M (s : State) (r w : Nat) (v : Word) :
    (s.writeM r w v).M = s.M.write (r * s.params.wdsMax + w) v := rfl
@[simp] theorem State.writeM_Z (s : State) (r w : Nat) (v : Word) : (s.writeM r w v).Z = s.Z := rfl
@[simp] theorem State.writeM_zi (s : State) (r w : Nat) (v : Word) : (s.writeM r w v).zi = s.zi := rfl
@[simp] theorem State.writeM_pending (s : State) (r w : Nat) (v : Word) :
    (s.writeM r w v).pending = s.pending := rfl
@[simp] theorem State.writeM_answers (s : State) (r w : Nat) (v : Word) :
    (s.writeM r w v).answers = s.answers := rfl

/-! ## Words of the table memory -/

@[simp] theorem State.writeZ_params (s : State) (e w : Nat) (v : Word) :
    (s.writeZ e w v).params = s.params := rfl
@[simp] theorem State.writeZ_x0 (s : State) (e w : Nat) (v : Word) : (s.writeZ e w v).x0 = s.x0 := rfl
@[simp] theorem State.writeZ_x1 (s : State) (e w : Nat) (v : Word) : (s.writeZ e w v).x1 = s.x1 := rfl
@[simp] theorem State.writeZ_x2 (s : State) (e w : Nat) (v : Word) : (s.writeZ e w v).x2 = s.x2 := rfl
@[simp] theorem State.writeZ_x3 (s : State) (e w : Nat) (v : Word) : (s.writeZ e w v).x3 = s.x3 := rfl
@[simp] theorem State.writeZ_x4 (s : State) (e w : Nat) (v : Word) : (s.writeZ e w v).x4 = s.x4 := rfl
@[simp] theorem State.writeZ_cfgM (s : State) (e w : Nat) (v : Word) : (s.writeZ e w v).cfgM = s.cfgM := rfl
@[simp] theorem State.writeZ_cfgWds (s : State) (e w : Nat) (v : Word) :
    (s.writeZ e w v).cfgWds = s.cfgWds := rfl
@[simp] theorem State.writeZ_status (s : State) (e w : Nat) (v : Word) :
    (s.writeZ e w v).status = s.status := rfl
@[simp] theorem State.writeZ_fcmd (s : State) (e w : Nat) (v : Word) : (s.writeZ e w v).fcmd = s.fcmd := rfl
@[simp] theorem State.writeZ_tblOff (s : State) (e w : Nat) (v : Word) :
    (s.writeZ e w v).tblOff = s.tblOff := rfl
@[simp] theorem State.writeZ_tblCnt (s : State) (e w : Nat) (v : Word) :
    (s.writeZ e w v).tblCnt = s.tblCnt := rfl
@[simp] theorem State.writeZ_M (s : State) (e w : Nat) (v : Word) : (s.writeZ e w v).M = s.M := rfl
@[simp] theorem State.writeZ_Z (s : State) (e w : Nat) (v : Word) :
    (s.writeZ e w v).Z = s.Z.write (e * s.params.wdsMax + w) v := rfl
@[simp] theorem State.writeZ_zi (s : State) (e w : Nat) (v : Word) : (s.writeZ e w v).zi = s.zi := rfl
@[simp] theorem State.writeZ_pending (s : State) (e w : Nat) (v : Word) :
    (s.writeZ e w v).pending = s.pending := rfl
@[simp] theorem State.writeZ_answers (s : State) (e w : Nat) (v : Word) :
    (s.writeZ e w v).answers = s.answers := rfl

/-! ## Entries of the membership array -/

@[simp] theorem State.writeZI_params (s : State) (j : Nat) (v : Word) :
    (s.writeZI j v).params = s.params := rfl
@[simp] theorem State.writeZI_x0 (s : State) (j : Nat) (v : Word) : (s.writeZI j v).x0 = s.x0 := rfl
@[simp] theorem State.writeZI_x1 (s : State) (j : Nat) (v : Word) : (s.writeZI j v).x1 = s.x1 := rfl
@[simp] theorem State.writeZI_x2 (s : State) (j : Nat) (v : Word) : (s.writeZI j v).x2 = s.x2 := rfl
@[simp] theorem State.writeZI_x3 (s : State) (j : Nat) (v : Word) : (s.writeZI j v).x3 = s.x3 := rfl
@[simp] theorem State.writeZI_x4 (s : State) (j : Nat) (v : Word) : (s.writeZI j v).x4 = s.x4 := rfl
@[simp] theorem State.writeZI_cfgM (s : State) (j : Nat) (v : Word) : (s.writeZI j v).cfgM = s.cfgM := rfl
@[simp] theorem State.writeZI_cfgWds (s : State) (j : Nat) (v : Word) :
    (s.writeZI j v).cfgWds = s.cfgWds := rfl
@[simp] theorem State.writeZI_status (s : State) (j : Nat) (v : Word) :
    (s.writeZI j v).status = s.status := rfl
@[simp] theorem State.writeZI_fcmd (s : State) (j : Nat) (v : Word) : (s.writeZI j v).fcmd = s.fcmd := rfl
@[simp] theorem State.writeZI_tblOff (s : State) (j : Nat) (v : Word) :
    (s.writeZI j v).tblOff = s.tblOff := rfl
@[simp] theorem State.writeZI_tblCnt (s : State) (j : Nat) (v : Word) :
    (s.writeZI j v).tblCnt = s.tblCnt := rfl
@[simp] theorem State.writeZI_M (s : State) (j : Nat) (v : Word) : (s.writeZI j v).M = s.M := rfl
@[simp] theorem State.writeZI_Z (s : State) (j : Nat) (v : Word) : (s.writeZI j v).Z = s.Z := rfl
@[simp] theorem State.writeZI_zi (s : State) (j : Nat) (v : Word) : (s.writeZI j v).zi = s.zi.write j v := rfl
@[simp] theorem State.writeZI_pending (s : State) (j : Nat) (v : Word) :
    (s.writeZI j v).pending = s.pending := rfl
@[simp] theorem State.writeZI_answers (s : State) (j : Nat) (v : Word) :
    (s.writeZI j v).answers = s.answers := rfl

/-! ## Taking the exception -/

@[simp] theorem State.raise_params (s : State) (cause : Cause) (word : Word) :
    (s.raise cause word).params = s.params := rfl
@[simp] theorem State.raise_x0 (s : State) (cause : Cause) (word : Word) :
    (s.raise cause word).x0 = s.x0 := rfl
@[simp] theorem State.raise_x1 (s : State) (cause : Cause) (word : Word) :
    (s.raise cause word).x1 = s.x1 := rfl
@[simp] theorem State.raise_x2 (s : State) (cause : Cause) (word : Word) :
    (s.raise cause word).x2 = s.x2 := rfl
@[simp] theorem State.raise_x3 (s : State) (cause : Cause) (word : Word) :
    (s.raise cause word).x3 = s.x3 := rfl
@[simp] theorem State.raise_x4 (s : State) (cause : Cause) (word : Word) :
    (s.raise cause word).x4 = s.x4 := rfl
@[simp] theorem State.raise_cfgM (s : State) (cause : Cause) (word : Word) :
    (s.raise cause word).cfgM = s.cfgM := rfl
@[simp] theorem State.raise_cfgWds (s : State) (cause : Cause) (word : Word) :
    (s.raise cause word).cfgWds = s.cfgWds := rfl
@[simp] theorem State.raise_status (s : State) (cause : Cause) (word : Word) :
    (s.raise cause word).status = faultStatus cause := rfl
@[simp] theorem State.raise_fcmd (s : State) (cause : Cause) (word : Word) :
    (s.raise cause word).fcmd = word := rfl
@[simp] theorem State.raise_tblOff (s : State) (cause : Cause) (word : Word) :
    (s.raise cause word).tblOff = s.tblOff := rfl
@[simp] theorem State.raise_tblCnt (s : State) (cause : Cause) (word : Word) :
    (s.raise cause word).tblCnt = s.tblCnt := rfl
@[simp] theorem State.raise_M (s : State) (cause : Cause) (word : Word) : (s.raise cause word).M = s.M := rfl
@[simp] theorem State.raise_Z (s : State) (cause : Cause) (word : Word) : (s.raise cause word).Z = s.Z := rfl
@[simp] theorem State.raise_zi (s : State) (cause : Cause) (word : Word) :
    (s.raise cause word).zi = s.zi := rfl
@[simp] theorem State.raise_pending (s : State) (cause : Cause) (word : Word) :
    (s.raise cause word).pending = s.pending := rfl
@[simp] theorem State.raise_answers (s : State) (cause : Cause) (word : Word) :
    (s.raise cause word).answers = s.answers := rfl

/-! ## The return from it -/

@[simp] theorem State.clearFault_params (s : State) : (s.clearFault).params = s.params := rfl
@[simp] theorem State.clearFault_x0 (s : State) : (s.clearFault).x0 = s.x0 := rfl
@[simp] theorem State.clearFault_x1 (s : State) : (s.clearFault).x1 = s.x1 := rfl
@[simp] theorem State.clearFault_x2 (s : State) : (s.clearFault).x2 = s.x2 := rfl
@[simp] theorem State.clearFault_x3 (s : State) : (s.clearFault).x3 = s.x3 := rfl
@[simp] theorem State.clearFault_x4 (s : State) : (s.clearFault).x4 = s.x4 := rfl
@[simp] theorem State.clearFault_cfgM (s : State) : (s.clearFault).cfgM = s.cfgM := rfl
@[simp] theorem State.clearFault_cfgWds (s : State) : (s.clearFault).cfgWds = s.cfgWds := rfl
@[simp] theorem State.clearFault_status (s : State) : (s.clearFault).status = 0 := rfl
@[simp] theorem State.clearFault_fcmd (s : State) : (s.clearFault).fcmd = s.fcmd := rfl
@[simp] theorem State.clearFault_tblOff (s : State) : (s.clearFault).tblOff = s.tblOff := rfl
@[simp] theorem State.clearFault_tblCnt (s : State) : (s.clearFault).tblCnt = s.tblCnt := rfl
@[simp] theorem State.clearFault_M (s : State) : (s.clearFault).M = s.M := rfl
@[simp] theorem State.clearFault_Z (s : State) : (s.clearFault).Z = s.Z := rfl
@[simp] theorem State.clearFault_zi (s : State) : (s.clearFault).zi = s.zi := rfl
@[simp] theorem State.clearFault_pending (s : State) : (s.clearFault).pending = s.pending := rfl
@[simp] theorem State.clearFault_answers (s : State) : (s.clearFault).answers = s.answers := rfl

/-! ## The table tag -/

@[simp] theorem State.setTag_params (s : State) : (s.setTag).params = s.params := rfl
@[simp] theorem State.setTag_x0 (s : State) : (s.setTag).x0 = s.x0 := rfl
@[simp] theorem State.setTag_x1 (s : State) : (s.setTag).x1 = s.x1 := rfl
@[simp] theorem State.setTag_x2 (s : State) : (s.setTag).x2 = s.x2 := rfl
@[simp] theorem State.setTag_x3 (s : State) : (s.setTag).x3 = s.x3 := rfl
@[simp] theorem State.setTag_x4 (s : State) : (s.setTag).x4 = s.x4 := rfl
@[simp] theorem State.setTag_cfgM (s : State) : (s.setTag).cfgM = s.cfgM := rfl
@[simp] theorem State.setTag_cfgWds (s : State) : (s.setTag).cfgWds = s.cfgWds := rfl
@[simp] theorem State.setTag_status (s : State) : (s.setTag).status = s.status := rfl
@[simp] theorem State.setTag_fcmd (s : State) : (s.setTag).fcmd = s.fcmd := rfl
@[simp] theorem State.setTag_tblOff (s : State) : (s.setTag).tblOff = s.x1 := rfl
@[simp] theorem State.setTag_tblCnt (s : State) : (s.setTag).tblCnt = validTblCnt s.x2 := rfl
@[simp] theorem State.setTag_M (s : State) : (s.setTag).M = s.M := rfl
@[simp] theorem State.setTag_Z (s : State) : (s.setTag).Z = s.Z := rfl
@[simp] theorem State.setTag_zi (s : State) : (s.setTag).zi = s.zi := rfl
@[simp] theorem State.setTag_pending (s : State) : (s.setTag).pending = s.pending := rfl
@[simp] theorem State.setTag_answers (s : State) : (s.setTag).answers = s.answers := rfl

/-! ## A value returned to the host -/

@[simp] theorem State.answer_params (s : State) (v : Word) : (s.answer v).params = s.params := rfl
@[simp] theorem State.answer_x0 (s : State) (v : Word) : (s.answer v).x0 = s.x0 := rfl
@[simp] theorem State.answer_x1 (s : State) (v : Word) : (s.answer v).x1 = s.x1 := rfl
@[simp] theorem State.answer_x2 (s : State) (v : Word) : (s.answer v).x2 = s.x2 := rfl
@[simp] theorem State.answer_x3 (s : State) (v : Word) : (s.answer v).x3 = s.x3 := rfl
@[simp] theorem State.answer_x4 (s : State) (v : Word) : (s.answer v).x4 = s.x4 := rfl
@[simp] theorem State.answer_cfgM (s : State) (v : Word) : (s.answer v).cfgM = s.cfgM := rfl
@[simp] theorem State.answer_cfgWds (s : State) (v : Word) : (s.answer v).cfgWds = s.cfgWds := rfl
@[simp] theorem State.answer_status (s : State) (v : Word) : (s.answer v).status = s.status := rfl
@[simp] theorem State.answer_fcmd (s : State) (v : Word) : (s.answer v).fcmd = s.fcmd := rfl
@[simp] theorem State.answer_tblOff (s : State) (v : Word) : (s.answer v).tblOff = s.tblOff := rfl
@[simp] theorem State.answer_tblCnt (s : State) (v : Word) : (s.answer v).tblCnt = s.tblCnt := rfl
@[simp] theorem State.answer_M (s : State) (v : Word) : (s.answer v).M = s.M := rfl
@[simp] theorem State.answer_Z (s : State) (v : Word) : (s.answer v).Z = s.Z := rfl
@[simp] theorem State.answer_zi (s : State) (v : Word) : (s.answer v).zi = s.zi := rfl
@[simp] theorem State.answer_pending (s : State) (v : Word) : (s.answer v).pending = s.pending := rfl
@[simp] theorem State.answer_answers (s : State) (v : Word) : (s.answer v).answers = s.answers ++ [v] := rfl

/-! ## A host write -/

@[simp] theorem State.hostStore_params (s : State) (idx : Nat) (v : Word) :
    (s.hostStore idx v).params = s.params := rfl
@[simp] theorem State.hostStore_x0 (s : State) (idx : Nat) (v : Word) : (s.hostStore idx v).x0 = s.x0 := rfl
@[simp] theorem State.hostStore_x1 (s : State) (idx : Nat) (v : Word) : (s.hostStore idx v).x1 = s.x1 := rfl
@[simp] theorem State.hostStore_x2 (s : State) (idx : Nat) (v : Word) : (s.hostStore idx v).x2 = s.x2 := rfl
@[simp] theorem State.hostStore_x3 (s : State) (idx : Nat) (v : Word) : (s.hostStore idx v).x3 = s.x3 := rfl
@[simp] theorem State.hostStore_x4 (s : State) (idx : Nat) (v : Word) : (s.hostStore idx v).x4 = s.x4 := rfl
@[simp] theorem State.hostStore_cfgM (s : State) (idx : Nat) (v : Word) :
    (s.hostStore idx v).cfgM = s.cfgM := rfl
@[simp] theorem State.hostStore_cfgWds (s : State) (idx : Nat) (v : Word) :
    (s.hostStore idx v).cfgWds = s.cfgWds := rfl
@[simp] theorem State.hostStore_status (s : State) (idx : Nat) (v : Word) :
    (s.hostStore idx v).status = s.status := rfl
@[simp] theorem State.hostStore_fcmd (s : State) (idx : Nat) (v : Word) :
    (s.hostStore idx v).fcmd = s.fcmd := rfl
@[simp] theorem State.hostStore_tblOff (s : State) (idx : Nat) (v : Word) :
    (s.hostStore idx v).tblOff = s.tblOff := rfl
@[simp] theorem State.hostStore_tblCnt (s : State) (idx : Nat) (v : Word) :
    (s.hostStore idx v).tblCnt = s.tblCnt := rfl
@[simp] theorem State.hostStore_M (s : State) (idx : Nat) (v : Word) :
    (s.hostStore idx v).M = s.M.write idx v := rfl
@[simp] theorem State.hostStore_Z (s : State) (idx : Nat) (v : Word) : (s.hostStore idx v).Z = s.Z := rfl
@[simp] theorem State.hostStore_zi (s : State) (idx : Nat) (v : Word) : (s.hostStore idx v).zi = s.zi := rfl
@[simp] theorem State.hostStore_pending (s : State) (idx : Nat) (v : Word) :
    (s.hostStore idx v).pending = s.pending := rfl
@[simp] theorem State.hostStore_answers (s : State) (idx : Nat) (v : Word) :
    (s.hostStore idx v).answers = s.answers := rfl

/-! ## A command queued -/

@[simp] theorem State.queueCommand_params (s : State) (c : Word) : (s.queueCommand c).params = s.params := rfl
@[simp] theorem State.queueCommand_x0 (s : State) (c : Word) : (s.queueCommand c).x0 = s.x0 := rfl
@[simp] theorem State.queueCommand_x1 (s : State) (c : Word) : (s.queueCommand c).x1 = s.x1 := rfl
@[simp] theorem State.queueCommand_x2 (s : State) (c : Word) : (s.queueCommand c).x2 = s.x2 := rfl
@[simp] theorem State.queueCommand_x3 (s : State) (c : Word) : (s.queueCommand c).x3 = s.x3 := rfl
@[simp] theorem State.queueCommand_x4 (s : State) (c : Word) : (s.queueCommand c).x4 = s.x4 := rfl
@[simp] theorem State.queueCommand_cfgM (s : State) (c : Word) : (s.queueCommand c).cfgM = s.cfgM := rfl
@[simp] theorem State.queueCommand_cfgWds (s : State) (c : Word) : (s.queueCommand c).cfgWds = s.cfgWds := rfl
@[simp] theorem State.queueCommand_status (s : State) (c : Word) : (s.queueCommand c).status = s.status := rfl
@[simp] theorem State.queueCommand_fcmd (s : State) (c : Word) : (s.queueCommand c).fcmd = s.fcmd := rfl
@[simp] theorem State.queueCommand_tblOff (s : State) (c : Word) : (s.queueCommand c).tblOff = s.tblOff := rfl
@[simp] theorem State.queueCommand_tblCnt (s : State) (c : Word) : (s.queueCommand c).tblCnt = s.tblCnt := rfl
@[simp] theorem State.queueCommand_M (s : State) (c : Word) : (s.queueCommand c).M = s.M := rfl
@[simp] theorem State.queueCommand_Z (s : State) (c : Word) : (s.queueCommand c).Z = s.Z := rfl
@[simp] theorem State.queueCommand_zi (s : State) (c : Word) : (s.queueCommand c).zi = s.zi := rfl
@[simp] theorem State.queueCommand_pending (s : State) (c : Word) :
    (s.queueCommand c).pending = .regWrite cmdOffset c :: s.pending := rfl
@[simp] theorem State.queueCommand_answers (s : State) (c : Word) :
    (s.queueCommand c).answers = s.answers := rfl

/-! ## A word of a named row -/

@[simp] theorem State.writeRow_params (s : State) (ref : RowRef) (w : Nat) (v : Word) :
    (s.writeRow ref w v).params = s.params := by
  unfold State.writeRow; split <;> rfl
@[simp] theorem State.writeRow_x0 (s : State) (ref : RowRef) (w : Nat) (v : Word) :
    (s.writeRow ref w v).x0 = s.x0 := by
  unfold State.writeRow; split <;> rfl
@[simp] theorem State.writeRow_x1 (s : State) (ref : RowRef) (w : Nat) (v : Word) :
    (s.writeRow ref w v).x1 = s.x1 := by
  unfold State.writeRow; split <;> rfl
@[simp] theorem State.writeRow_x2 (s : State) (ref : RowRef) (w : Nat) (v : Word) :
    (s.writeRow ref w v).x2 = s.x2 := by
  unfold State.writeRow; split <;> rfl
@[simp] theorem State.writeRow_x3 (s : State) (ref : RowRef) (w : Nat) (v : Word) :
    (s.writeRow ref w v).x3 = s.x3 := by
  unfold State.writeRow; split <;> rfl
@[simp] theorem State.writeRow_x4 (s : State) (ref : RowRef) (w : Nat) (v : Word) :
    (s.writeRow ref w v).x4 = s.x4 := by
  unfold State.writeRow; split <;> rfl
@[simp] theorem State.writeRow_cfgM (s : State) (ref : RowRef) (w : Nat) (v : Word) :
    (s.writeRow ref w v).cfgM = s.cfgM := by
  unfold State.writeRow; split <;> rfl
@[simp] theorem State.writeRow_cfgWds (s : State) (ref : RowRef) (w : Nat) (v : Word) :
    (s.writeRow ref w v).cfgWds = s.cfgWds := by
  unfold State.writeRow; split <;> rfl
@[simp] theorem State.writeRow_status (s : State) (ref : RowRef) (w : Nat) (v : Word) :
    (s.writeRow ref w v).status = s.status := by
  unfold State.writeRow; split <;> rfl
@[simp] theorem State.writeRow_fcmd (s : State) (ref : RowRef) (w : Nat) (v : Word) :
    (s.writeRow ref w v).fcmd = s.fcmd := by
  unfold State.writeRow; split <;> rfl
@[simp] theorem State.writeRow_tblOff (s : State) (ref : RowRef) (w : Nat) (v : Word) :
    (s.writeRow ref w v).tblOff = s.tblOff := by
  unfold State.writeRow; split <;> rfl
@[simp] theorem State.writeRow_tblCnt (s : State) (ref : RowRef) (w : Nat) (v : Word) :
    (s.writeRow ref w v).tblCnt = s.tblCnt := by
  unfold State.writeRow; split <;> rfl
@[simp] theorem State.writeRow_zi (s : State) (ref : RowRef) (w : Nat) (v : Word) :
    (s.writeRow ref w v).zi = s.zi := by
  unfold State.writeRow; split <;> rfl
@[simp] theorem State.writeRow_pending (s : State) (ref : RowRef) (w : Nat) (v : Word) :
    (s.writeRow ref w v).pending = s.pending := by
  unfold State.writeRow; split <;> rfl
@[simp] theorem State.writeRow_answers (s : State) (ref : RowRef) (w : Nat) (v : Word) :
    (s.writeRow ref w v).answers = s.answers := by
  unfold State.writeRow; split <;> rfl

/-! ## Reset -/

@[simp] theorem State.hardReset_params (s : State) (c : Contents) : (s.hardReset c).params = s.params := rfl
@[simp] theorem State.hardReset_x0 (s : State) (c : Contents) : (s.hardReset c).x0 = 0 := rfl
@[simp] theorem State.hardReset_x1 (s : State) (c : Contents) : (s.hardReset c).x1 = 0 := rfl
@[simp] theorem State.hardReset_x2 (s : State) (c : Contents) : (s.hardReset c).x2 = 0 := rfl
@[simp] theorem State.hardReset_x3 (s : State) (c : Contents) : (s.hardReset c).x3 = 0 := rfl
@[simp] theorem State.hardReset_x4 (s : State) (c : Contents) : (s.hardReset c).x4 = 0 := rfl
@[simp] theorem State.hardReset_cfgM (s : State) (c : Contents) : (s.hardReset c).cfgM = 0 := rfl
@[simp] theorem State.hardReset_cfgWds (s : State) (c : Contents) : (s.hardReset c).cfgWds = 0 := rfl
@[simp] theorem State.hardReset_status (s : State) (c : Contents) : (s.hardReset c).status = 0 := rfl
@[simp] theorem State.hardReset_fcmd (s : State) (c : Contents) : (s.hardReset c).fcmd = 0 := rfl
@[simp] theorem State.hardReset_tblOff (s : State) (c : Contents) : (s.hardReset c).tblOff = 0 := rfl
@[simp] theorem State.hardReset_tblCnt (s : State) (c : Contents) : (s.hardReset c).tblCnt = 0 := rfl
@[simp] theorem State.hardReset_M (s : State) (c : Contents) : (s.hardReset c).M = c.M := rfl
@[simp] theorem State.hardReset_Z (s : State) (c : Contents) : (s.hardReset c).Z = c.Z := rfl
@[simp] theorem State.hardReset_zi (s : State) (c : Contents) : (s.hardReset c).zi = c.zi := rfl
@[simp] theorem State.hardReset_pending (s : State) (c : Contents) : (s.hardReset c).pending = s.pending := rfl
@[simp] theorem State.hardReset_answers (s : State) (c : Contents) : (s.hardReset c).answers = s.answers := rfl

end Sys2Proof.Machine
end

