-- ==== Sys2Proof/Laws/Rows.lean ====
section
/-! SUPPORT. Words of named rows after a write, and all that `xorInto` does (41_xorinto.md R102). -/

namespace Sys2Proof.Machine

/-- Two places of a table of rows of `n` words are the same place only when row and word are. -/
theorem rowIndex_inj {n r r' w w' : Nat} (hw : w < n) (hw' : w' < n) :
    r * n + w = r' * n + w' ↔ r = r' ∧ w = w' := by
  constructor
  · intro h
    have hr : r = r' := by
      have h1 : (r * n + w) / n = r := by
        rw [Nat.add_comm, Nat.add_mul_div_right _ _ (by omega), Nat.div_eq_of_lt hw, Nat.zero_add]
      have h2 : (r' * n + w') / n = r' := by
        rw [Nat.add_comm, Nat.add_mul_div_right _ _ (by omega), Nat.div_eq_of_lt hw', Nat.zero_add]
      rw [← h1, h, h2]
    exact ⟨hr, by subst hr; omega⟩
  · rintro ⟨rfl, rfl⟩; rfl

theorem State.readM_writeM (s : State) {r r' w w' : Nat} (v : Word) (hw : w < s.params.wdsMax)
    (hw' : w' < s.params.wdsMax) :
    (s.writeM r w v).readM r' w' = if r' = r ∧ w' = w then v else s.readM r' w' := by
  simp [State.readM, State.writeM, Memory.read_write, rowIndex_inj hw' hw]

theorem State.readZ_writeZ (s : State) {e e' w w' : Nat} (v : Word) (hw : w < s.params.wdsMax)
    (hw' : w' < s.params.wdsMax) :
    (s.writeZ e w v).readZ e' w' = if e' = e ∧ w' = w then v else s.readZ e' w' := by
  simp [State.readZ, State.writeZ, Memory.read_write, rowIndex_inj hw' hw]

@[simp] theorem State.readM_writeZ (s : State) (e w r x : Nat) (v : Word) :
    (s.writeZ e w v).readM r x = s.readM r x := rfl

@[simp] theorem State.readZ_writeM (s : State) (e w r x : Nat) (v : Word) :
    (s.writeM r x v).readZ e w = s.readZ e w := rfl

@[simp] theorem State.readM_writeZI (s : State) (j r w : Nat) (v : Word) :
    (s.writeZI j v).readM r w = s.readM r w := rfl

@[simp] theorem State.readZ_writeZI (s : State) (j e w : Nat) (v : Word) :
    (s.writeZI j v).readZ e w = s.readZ e w := rfl

theorem State.readZI_writeZI (s : State) (j i : Nat) (v : Word) :
    (s.writeZI j v).readZI i = if i = j then v else s.readZI i := by
  simp [State.readZI, State.writeZI, Memory.read_write]

/-- All that a write of a word of a named row does to the words of named rows. -/
theorem State.readRow_writeRow (s : State) (dest ref : RowRef) {w w' : Nat} (v : Word)
    (hw : w < s.params.wdsMax) (hw' : w' < s.params.wdsMax) :
    (s.writeRow dest w v).readRow ref w' = if ref = dest ∧ w' = w then v else s.readRow ref w' := by
  obtain ⟨td, d⟩ := dest
  obtain ⟨tr, r⟩ := ref
  cases td <;> cases tr <;>
    simp [State.readRow, State.writeRow, State.readM_writeM s v hw hw', State.readZ_writeZ s v hw hw']

/-- A write to a row of one of the two row memories leaves the other as data, and every index of its own but the
word's. -/
theorem State.writeRow_other_memory (s : State) (dest : RowRef) (w : Nat) (v : Word) :
    (dest.table = false → (s.writeRow dest w v).Z = s.Z) ∧ (dest.table = true → (s.writeRow dest w v).M = s.M) := by
  obtain ⟨td, d⟩ := dest
  cases td <;> simp [State.writeRow]

/-- ALL that `xorInto` does, for any aliasing: word `w` of `dest` in the range is the XOR of the OLD words of
`left` and `right`; every other word of a row, and everything that is not a row, is as before. -/
theorem xorInto_spec (dest left right : RowRef) {k n : Nat} {s : State} (hn : n ≤ s.params.wdsMax) :
    let t := xorInto dest left right k n s
    t = { s with M := t.M, Z := t.Z } ∧
    (dest.table = false → t.Z = s.Z) ∧ (dest.table = true → t.M = s.M) ∧
    ∀ ref w, w < s.params.wdsMax → t.readRow ref w =
      if ref = dest ∧ k ≤ w ∧ w < n then s.readRow left w ^^^ s.readRow right w else s.readRow ref w := by
  have key := forRange_induction (a := k) (b := n)
    (body := fun w t => State.writeRow t dest w (t.readRow left w ^^^ t.readRow right w)) (s := s)
    (fun i t => t = { s with M := t.M, Z := t.Z } ∧
      (dest.table = false → t.Z = s.Z) ∧ (dest.table = true → t.M = s.M) ∧
      ∀ ref w, w < s.params.wdsMax → t.readRow ref w =
        if ref = dest ∧ k ≤ w ∧ w < i then s.readRow left w ^^^ s.readRow right w else s.readRow ref w)
    ?_ ?_
  · obtain ⟨h1, h2, h3, h4⟩ := key
    refine ⟨h1, h2, h3, fun ref w hw => ?_⟩
    rw [show xorInto dest left right k n s = forRange k n _ s from rfl, h4 ref w hw]
    congr 1
    simp only [eq_iff_iff, and_congr_right_iff]
    omega
  · refine ⟨rfl, fun _ => rfl, fun _ => rfl, fun ref w _ => ?_⟩
    rw [if_neg (by omega)]
  · rintro i t hki hin ⟨h1, h2, h3, h4⟩
    have hp : t.params.wdsMax = s.params.wdsMax := by rw [h1]
    have hi : i < t.params.wdsMax := by omega
    refine ⟨?_, fun h => ?_, fun h => ?_, fun ref w hw => ?_⟩
    · unfold State.writeRow
      split
      · rw [State.writeZ, h1]
      · rw [State.writeM, h1]
    · rw [(State.writeRow_other_memory t dest i _).1 h, h2 h]
    · rw [(State.writeRow_other_memory t dest i _).2 h, h3 h]
    · rw [State.readRow_writeRow t dest ref _ hi (by omega)]
      by_cases hr : ref = dest ∧ w = i
      · obtain ⟨rfl, rfl⟩ := hr
        rw [if_pos ⟨rfl, rfl⟩, if_pos ⟨rfl, hki, by omega⟩, h4 left w hw, h4 right w hw,
          if_neg (by omega), if_neg (by omega)]
      · rw [if_neg hr, h4 ref w hw]
        congr 1
        simp only [eq_iff_iff, and_congr_right_iff]
        intro hd
        have : w ≠ i := fun h => hr ⟨hd, h⟩
        omega

/-- An empty range changes nothing (41_xorinto.md R107). -/
theorem xorInto_of_le (dest left right : RowRef) {k n : Nat} (h : n ≤ k) (s : State) :
    xorInto dest left right k n s = s :=
  forRange_of_le h _ s

end Sys2Proof.Machine
end

