-- ==== Sys2Proof/Laws/Frame.lean ====
section
/-! SUPPORT. What the procedures of the commands leave as data, in every state: `xorInto` and the eliminate phase
leave all but the rows, the build phase all but the table, the array and the tag. -/

namespace Sys2Proof.Machine

theorem State.writeRow_frame (s : State) (ref : RowRef) (w : Nat) (v : Word) :
    s.writeRow ref w v = { s with M := (s.writeRow ref w v).M, Z := (s.writeRow ref w v).Z } := by
  unfold State.writeRow
  split <;> rfl

/-- `xorInto` changes the two row memories at most. -/
theorem xorInto_frame (dest left right : RowRef) (k n : Nat) (s : State) :
    xorInto dest left right k n s =
      { s with M := (xorInto dest left right k n s).M, Z := (xorInto dest left right k n s).Z } := by
  unfold xorInto
  refine forRange_keeps (P := fun t : State => t = { s with M := t.M, Z := t.Z }) rfl fun i t _ _ ht => ?_
  rw [State.writeRow_frame, ht]

/-- With a table row as `dest` the matrix stays as data. -/
theorem xorInto_M (dest left right : RowRef) (k n : Nat) (s : State) (h : dest.table = true) :
    (xorInto dest left right k n s).M = s.M := by
  unfold xorInto
  refine forRange_keeps (P := fun t : State => t.M = s.M) rfl fun i t _ _ ht => ?_
  rw [(State.writeRow_other_memory t dest i _).2 h, ht]

/-- With a matrix row as `dest` the table stays as data. -/
theorem xorInto_Z (dest left right : RowRef) (k n : Nat) (s : State) (h : dest.table = false) :
    (xorInto dest left right k n s).Z = s.Z := by
  unfold xorInto
  refine forRange_keeps (P := fun t : State => t.Z = s.Z) rfl fun i t _ _ ht => ?_
  rw [(State.writeRow_other_memory t dest i _).1 h, ht]

theorem elimRow_frame (s0 S k0 i : Nat) (s : State) :
    elimRow s0 S k0 i s = { s with M := (elimRow s0 S k0 i s).M } := by
  unfold elimRow
  conv_lhs => rw [xorInto_frame, xorInto_Z _ _ _ _ _ _ rfl]

/-- The eliminate phase changes the matrix at most (43_eliminate.md R133). -/
theorem elimEffect_frame (s : State) : elimEffect s = { s with M := (elimEffect s).M } := by
  unfold elimEffect
  refine forRange_keeps (P := fun t : State => t = { s with M := t.M }) rfl fun i t _ _ ht => ?_
  rw [elimRow_frame, ht]

theorem zeroFill_frame (S k0 : Nat) (s : State) : zeroFill S k0 s = { s with Z := (zeroFill S k0 s).Z } := by
  unfold zeroFill
  refine forRange_keeps (P := fun t : State => t = { s with Z := t.Z }) rfl fun e t _ _ ht => ?_
  refine forRange_keeps (P := fun t : State => t = { s with Z := t.Z }) ht fun w u _ _ hu => ?_
  rw [State.writeZ, hu]

theorem buildSlot_frame (r vv ii k0 j : Nat) (s : State) :
    buildSlot r vv ii k0 j s =
      { s with Z := (buildSlot r vv ii k0 j s).Z, zi := (buildSlot r vv ii k0 j s).zi } := by
  unfold buildSlot
  conv_lhs => rw [xorInto_frame, xorInto_M _ _ _ _ _ _ rfl]
  congr 1
  rw [xorInto_frame]

theorem buildPivot_frame (s0 S k0 i : Nat) (s : State) :
    buildPivot s0 S k0 i s = { s with Z := (buildPivot s0 S k0 i s).Z, zi := (buildPivot s0 S k0 i s).zi } := by
  unfold buildPivot
  refine forRange_keeps (P := fun t : State => t = { s with Z := t.Z, zi := t.zi }) rfl fun j t _ _ ht => ?_
  rw [buildSlot_frame, ht]

/-- The build phase changes the table, the membership array and the tag at most (42_buildtable.md R116,
R123). -/
theorem buildEffect_frame (s : State) :
    buildEffect s = { s with Z := (buildEffect s).Z, zi := (buildEffect s).zi, tblOff := s.x1,
                             tblCnt := validTblCnt s.x2 } := by
  have key : ∀ t : State, t = { s with Z := t.Z, zi := t.zi } →
      t.setTag = { s with Z := t.Z, zi := t.zi, tblOff := s.x1, tblCnt := validTblCnt s.x2 } := by
    intro t ht
    rw [State.setTag, ht]
  refine key _ ?_
  refine forRange_keeps (P := fun t : State => t = { s with Z := t.Z, zi := t.zi }) ?_ fun i t _ _ ht => ?_
  · rw [zeroFill_frame]
    rfl
  · rw [buildPivot_frame, ht]

end Sys2Proof.Machine
end

