-- ==== Sys2Proof/Laws/PerInstr.lean ====
section
/-! SUPPORT. The family `OpcodeField`: for each command, the fields of its command word (30_encoding.md R70,
R71). -/

namespace Sys2Proof

/-- The command word has its field `ZERO` zero and its opcode in the field `OP`, and the opcode map reads that
opcode as the command. -/
def Laws.OpcodeField.Statement (i : Instr) : Prop :=
  zeroField (encode i) = 0 ∧ opField (encode i) = opcodeOf i ∧ instrOfOpcode (opcodeOf i) = some i

theorem Laws.OpcodeField.extract : Laws.OpcodeField.Statement .extract := by
  unfold Laws.OpcodeField.Statement; decide

theorem Laws.OpcodeField.xorrow : Laws.OpcodeField.Statement .xorrow := by
  unfold Laws.OpcodeField.Statement; decide

theorem Laws.OpcodeField.build : Laws.OpcodeField.Statement .build := by
  unfold Laws.OpcodeField.Statement; decide

theorem Laws.OpcodeField.elim : Laws.OpcodeField.Statement .elim := by
  unfold Laws.OpcodeField.Statement; decide

theorem Laws.OpcodeField.pass : Laws.OpcodeField.Statement .pass := by
  unfold Laws.OpcodeField.Statement; decide

end Sys2Proof
end

