-- ==== Sys2Proof/Laws/Step.lean ====
section
/-! SUPPORT. The step on each shape of the host's list, and the canonical form at reset. -/

namespace Sys2Proof.Machine

theorem step_nil {s : State} (h : s.pending = []) : step s = .next s := by
  simp [step, serveNext, h]

/-- A step takes the first host operation off the list and performs it. -/
theorem step_cons {s : State} {op : HostOp} {rest : List HostOp} (h : s.pending = op :: rest) :
    step s = performOp op { s with pending := rest } := by
  simp [step, serveNext, h]

/-- A write to `CMD` is decoded and run (45_host_access.md R158). -/
theorem performOp_cmd (c : Word) (s : State) : performOp (.regWrite 0x24 c) s = writeCmd c s := rfl

theorem writeCmd_of_ok {c : Word} {i : Instr} (h : decode c = .ok i) (s : State) : writeCmd c s = exec i s := by
  simp [writeCmd, h]

theorem writeCmd_of_error {c : Word} {e : IllegalWord} (h : decode c = .error e) (s : State) :
    writeCmd c s = illegalCommand c s := by
  simp [writeCmd, h]

/-- The word that `withFetchWord` queues is the one the next step writes to `CMD`. -/
theorem step_withFetchWord (s : State) (nbits w : Nat) :
    step (s.withFetchWord nbits w) = writeCmd (tableWord nbits w) s := by
  rw [step_cons rfl]
  exact performOp_cmd (tableWord nbits w) s

/-- The memories have their canonical form right after reset. -/
theorem reset_memoriesWf : State.reset.MemoriesWf := ⟨rfl, rfl, rfl⟩

end Sys2Proof.Machine
end

