-- ==== Sys2Proof/Laws/Table.lean ====
section
/-! SUPPORT. What one turn of the loops of `BUILD` and `ELIM` does, and what the zero fill does
(42_buildtable.md R113, R114; 43_eliminate.md R132). -/

namespace Sys2Proof.Machine

@[simp] theorem State.readRow_matrixRow (s : State) (r w : Nat) : s.readRow (matrixRow r) w = s.readM r w := rfl

@[simp] theorem State.readRow_tableRow (s : State) (e w : Nat) : s.readRow (tableRow e) w = s.readZ e w := rfl

@[simp] theorem matrixRow_ne_tableRow (r e : Nat) : matrixRow r ≠ tableRow e := by
  simp [matrixRow, tableRow]

@[simp] theorem tableRow_ne_matrixRow (r e : Nat) : tableRow e ≠ matrixRow r := by
  simp [matrixRow, tableRow]

@[simp] theorem matrixRow_inj {r r' : Nat} : matrixRow r = matrixRow r' ↔ r = r' := by simp [matrixRow]

@[simp] theorem tableRow_inj {e e' : Nat} : tableRow e = tableRow e' ↔ e = e' := by simp [tableRow]

/-- One row of the zero fill. -/
theorem zeroFillRow_spec (e k0 n : Nat) {s : State} (hn : n ≤ s.params.wdsMax) :
    let t := forRange k0 n (fun w u => State.writeZ u e w 0) s
    t = { s with Z := t.Z } ∧ ∀ e' w, w < s.params.wdsMax →
      t.readZ e' w = if e' = e ∧ k0 ≤ w ∧ w < n then 0 else s.readZ e' w := by
  have key := forRange_induction (a := k0) (b := n) (body := fun w u => State.writeZ u e w 0) (s := s)
    (fun i t => t = { s with Z := t.Z } ∧ ∀ e' w, w < s.params.wdsMax →
      t.readZ e' w = if e' = e ∧ k0 ≤ w ∧ w < i then 0 else s.readZ e' w) ?_ ?_
  · refine ⟨key.1, fun e' w hw => ?_⟩
    rw [key.2 e' w hw]
    congr 1
    simp only [eq_iff_iff, and_congr_right_iff]
    omega
  · exact ⟨rfl, fun e' w _ => by rw [if_neg (by omega)]⟩
  · rintro i t hki hin ⟨h1, h2⟩
    have hp : t.params.wdsMax = s.params.wdsMax := by rw [h1]
    refine ⟨by rw [State.writeZ, h1], fun e' w hw => ?_⟩
    rw [State.readZ_writeZ t 0 (by omega) (by omega), h2 e' w hw]
    by_cases hi : e' = e ∧ w = i
    · rw [if_pos hi, if_pos ⟨hi.1, by omega⟩]
    · rw [if_neg hi]
      congr 1
      simp only [eq_iff_iff, and_congr_right_iff]
      intro he
      have : w ≠ i := fun h => hi ⟨he, h⟩
      omega

/-- ALL that the zero fill does (42_buildtable.md R114). -/
theorem zeroFill_spec (S k0 : Nat) {s : State} (hn : s.wds ≤ s.params.wdsMax) :
    let t := zeroFill S k0 s
    t = { s with Z := t.Z } ∧ ∀ e w, w < s.params.wdsMax →
      t.readZ e w = if e < 2 ^ S ∧ k0 ≤ w ∧ w < s.wds then 0 else s.readZ e w := by
  have key := forRange_induction (a := 0) (b := 2 ^ S)
    (body := fun e t => forRange k0 s.wds (fun w u => State.writeZ u e w 0) t) (s := s)
    (fun i t => t = { s with Z := t.Z } ∧ ∀ e w, w < s.params.wdsMax →
      t.readZ e w = if e < i ∧ k0 ≤ w ∧ w < s.wds then 0 else s.readZ e w) ?_ ?_
  · rw [Nat.zero_max] at key
    exact key
  · exact ⟨rfl, fun e w _ => by rw [if_neg (by omega)]⟩
  · rintro i t - - ⟨h1, h2⟩
    have hp : t.params.wdsMax = s.params.wdsMax := by rw [h1]
    obtain ⟨g1, g2⟩ := zeroFillRow_spec i k0 s.wds (s := t) (by omega)
    refine ⟨by rw [g1, h1], fun e w hw => ?_⟩
    rw [g2 e w (by omega), h2 e w hw]
    by_cases he : e = i
    · subst he
      by_cases hw' : k0 ≤ w ∧ w < s.wds
      · rw [if_pos ⟨rfl, hw'⟩, if_pos ⟨Nat.lt_succ_self e, hw'⟩]
      · rw [if_neg (fun h => hw' h.2), if_neg (fun h => hw' h.2), if_neg (fun h => hw' h.2)]
    · rw [if_neg (fun h => he h.1)]
      congr 1
      simp only [eq_iff_iff, and_congr_left_iff]
      omega

/-- ALL that one turn of the inner loop of `BUILD` does (42_buildtable.md R113, R115). -/
theorem buildSlot_spec (r vv ii k0 j : Nat) {s : State} (hn : s.wds ≤ s.params.wdsMax) :
    let a := (s.readZI j).toNat
    let t := buildSlot r vv ii k0 j s
    t = { s with Z := t.Z, zi := s.zi.write (j + ii) (BitVec.ofNat 32 (a ^^^ vv)) } ∧
    ∀ e w, w < s.params.wdsMax → t.readZ e w =
      if e = a ^^^ vv ∧ k0 ≤ w ∧ w < s.wds then s.readZ a w ^^^ s.readM r w else s.readZ e w := by
  intro a t
  obtain ⟨h1, -, h3, h4⟩ := xorInto_spec (tableRow (a ^^^ vv)) (tableRow a) (matrixRow r) (k := k0) (n := s.wds)
    (s := s.writeZI (j + ii) (BitVec.ofNat 32 (a ^^^ vv))) hn
  refine ⟨?_, fun e w hw => ?_⟩
  · rw [h3 rfl] at h1
    exact h1
  · have := h4 (tableRow e) w hw
    simp only [State.readRow_tableRow, State.readRow_matrixRow, tableRow_inj, State.readZ_writeZI,
      State.readM_writeZI] at this
    exact this

/-- ALL that one turn of the loop of `ELIM` does (43_eliminate.md R132). -/
theorem elimRow_spec (s0 S k0 i : Nat) {s : State} (hn : s.wds ≤ s.params.wdsMax) :
    let c := s.extract (matrixRow i) s0 S
    let t := elimRow s0 S k0 i s
    t = { s with M := t.M } ∧ ∀ r w, w < s.params.wdsMax → t.readM r w =
      if r = i ∧ k0 ≤ w ∧ w < s.wds then s.readM i w ^^^ s.readZ c w else s.readM r w := by
  intro c t
  obtain ⟨h1, h2, -, h4⟩ := xorInto_spec (matrixRow i) (matrixRow i) (tableRow c) (k := k0) (n := s.wds) (s := s) hn
  refine ⟨?_, fun r w hw => ?_⟩
  · rw [h2 rfl] at h1
    exact h1
  · have := h4 (matrixRow r) w hw
    simp only [State.readRow_tableRow, State.readRow_matrixRow, matrixRow_inj] at this
    exact this

@[simp] theorem buildOrder_zero : buildOrder 0 = [] := rfl

/-- One more pivot row adds its slots at the end of the order (42_buildtable.md R115). -/
theorem buildOrder_succ (S : Nat) :
    buildOrder (S + 1) = buildOrder S ++ (List.range (2 ^ S)).map fun j => (S, j) := by
  simp [buildOrder, List.range_succ]

/-- The row that a write of the loop names. -/
theorem State.tableStep_same (s : State) (table : Nat → Nat → Word) (i j w : Nat) :
    s.tableStep table (i, j) (s.subsetField j ^^^ s.pivotField i) w =
      table (s.subsetField j) w ^^^ s.readM (s.x1.toNat + i) w := if_pos rfl

/-- Every other row. -/
theorem State.tableStep_other (s : State) (table : Nat → Nat → Word) {i j e : Nat} (w : Nat)
    (h : e ≠ s.subsetField j ^^^ s.pivotField i) : s.tableStep table (i, j) e w = table e w := if_neg h

end Sys2Proof.Machine
end

