-- ==== Sys2Proof/Tests/Slice0.lean ====
section
/-! SUPPORT. The model's own tests: command words written out from the spec, refusals of ill-formed terms, one
step per behaviour with its result taken from spec/95_test_vectors.md (the vector is named), and for every
statement of Certificates/Slice0/Obligations.lean with hypotheses a witness that meets them. -/

namespace Sys2Proof.Tests

open Sys2Proof.Machine

/-! ## Helpers -/

/-- The reference instance with `m` rows of `wds` words and the operand registers `x`. -/
def start (m wds x0 x1 x2 x3 x4 : Word) : State :=
  { State.reset with cfgM := m, cfgWds := wds, x0 := x0, x1 := x1, x2 := x2, x3 := x3, x4 := x4 }

/-- The state with the first words of the matrix row `r` written. -/
def withRow (s : State) (r w : Nat) (words : List Word) : State :=
  match words with
  | [] => s
  | v :: rest => withRow (s.writeM r w v) r (w + 1) rest

/-- The state with the first words of the table row `e` written. -/
def withTableRow (s : State) (e w : Nat) (words : List Word) : State :=
  match words with
  | [] => s
  | v :: rest => withTableRow (s.writeZ e w v) e (w + 1) rest

/-- What a property says of the next state, and false of a stop. -/
def after (o : Host.Outcome State Fault Refusal) (p : State → Bool) : Bool :=
  match o with
  | .next t => p t
  | .fault _ => false
  | .refused _ => false

/-- V1 to V15: one row of two words. -/
def oneRow (offset length : Word) : State := withRow (start 1 2 0 0 offset length 0) 0 0 [0xB4, 0x6D]

/-- V17 to V19: three rows of two words. -/
def threeRows (dest left right startWord : Word) : State :=
  withRow (withRow (withRow (start 3 2 dest left right startWord 2) 0 0 [0x11, 0x22]) 1 0 [0x0F, 0xF0]) 2 0
    [0xAA, 0xBB]

/-- V22: two pivot rows with the independent fields 1 and 3, two rows to eliminate. -/
def fourRows : State :=
  withRow (withRow (withRow (withRow (start 4 1 0 0 2 0 0) 0 0 [0x15]) 1 0 [0x27]) 2 0 [0x0A]) 3 0 [0x0F]

/-- V33: the state of V22 after its `BUILD`, the table as the vector lists it. -/
def fourRowsBuilt : State :=
  { withTableRow (withTableRow (withTableRow fourRows 1 0 [0x15]) 2 0 [0x32]) 3 0 [0x27] with
    tblOff := 0, tblCnt := 0x80000002 }

/-- V25: one pivot row whose field is 0. -/
def zeroPivotState : State :=
  withRow (withRow (withRow (start 3 1 0 0 1 0 0) 0 0 [0x14]) 1 0 [0x03]) 2 0 [0x06]

/-- V23: two pivot rows with the same field 1. -/
def dependentFields : State :=
  withRow (withRow (start 5 1 0 0 2 0 0) 0 0 [0x15]) 1 0 [0x25]

/-- V27: one pivot row whose field is its unit bit. -/
def unitField : State :=
  withRow (withRow (withRow (start 3 1 0 0 1 0 0) 0 0 [0x81]) 1 0 [0x03]) 2 0 [0x06]

/-- The state with a recorded fault, cause `S_RANGE` of `BUILD` (V51). -/
def faultedState : State := { start 11 2 0 6 0 0 0 with status := 0x00000301, fcmd := 0x00000003 }

/-- The state whose host performs `ops` next. -/
def withOps (s : State) (ops : List HostOp) : State := { s with pending := ops }

/-! ## Command words, written out bit by bit from 30_encoding.md R70 and R71 -/

theorem test_decode_extract : decodeTableWord 32 0b00000000000000000000000000000001 = some .extract := by decide

theorem test_decode_xorrow : decodeTableWord 32 0b00000000000000000000000000000010 = some .xorrow := by decide

theorem test_decode_build : decodeTableWord 32 0b00000000000000000000000000000011 = some .build := by decide

theorem test_decode_elim : decodeTableWord 32 0b00000000000000000000000000000100 = some .elim := by decide

theorem test_decode_pass : decodeTableWord 32 0b00000000000000000000000000000101 = some .pass := by decide

/-- V45, V46, V47 (30_encoding.md R72). -/
theorem test_decode_illegal :
    decode 0x00000000 = .error .unassignedOpcode ∧ decode 0x00000006 = .error .unassignedOpcode ∧
      decode 0x000000FF = .error .unassignedOpcode ∧ decode 0x00000103 = .error .reservedBits ∧
      decode 0x80000003 = .error .reservedBits := by decide

/-! ## Ill-formed terms -/

theorem test_wf_instr : Instr.wellFormed .pass = true := by decide

theorem test_params_refused :
    ¬ Params.Legal { W := 0, sMax := 1, wdsMax := 1, mMax := 1 } ∧
    ¬ Params.Legal { W := 33, sMax := 1, wdsMax := 1, mMax := 1 } ∧
    ¬ Params.Legal { W := 8, sMax := 0, wdsMax := 1, mMax := 1 } ∧
    ¬ Params.Legal { W := 8, sMax := 9, wdsMax := 1, mMax := 1 } ∧
    ¬ Params.Legal { W := 32, sMax := 17, wdsMax := 1, mMax := 1 } := by decide

theorem test_params_sizes_refused :
    ¬ Params.Legal { W := 8, sMax := 8, wdsMax := 0, mMax := 1 } ∧
    ¬ Params.Legal { W := 8, sMax := 8, wdsMax := 65536, mMax := 1 } ∧
    ¬ Params.Legal { W := 8, sMax := 8, wdsMax := 1, mMax := 0 } ∧
    ¬ Params.Legal { W := 8, sMax := 8, wdsMax := 1, mMax := 65536 } ∧
    Params.Legal Params.reference := by decide

theorem test_hostop_refused :
    HostOp.wellFormed Params.reference (.regRead 0x02) = false ∧
    HostOp.wellFormed Params.reference (.regRead 0x100) = false ∧
    HostOp.wellFormed Params.reference (.regWrite 0x02 0) = false ∧
    HostOp.wellFormed Params.reference (.regWrite 0x100 0) = false ∧
    HostOp.wellFormed Params.reference (.hostRead .M 2048) = false ∧
    HostOp.wellFormed Params.reference (.hostRead .Z 4096) = false ∧
    HostOp.wellFormed Params.reference (.hostRead .ZI 256) = false ∧
    HostOp.wellFormed Params.reference (.hostWrite .Z 0 0) = false ∧
    HostOp.wellFormed Params.reference (.hostWrite .ZI 0 0) = false ∧
    HostOp.wellFormed Params.reference (.hostWrite .M 2048 0) = false ∧
    HostOp.wellFormed Params.reference (.hostWrite .M 0 256) = false ∧
    HostOp.wellFormed Params.reference (.hostWrite .M 2047 255) = true := by decide

theorem test_memory_refused :
    Memory.wf 16 8 [(3, 1), (3, 2)] = false ∧ Memory.wf 16 8 [(4, 1), (3, 2)] = false ∧
    Memory.wf 16 8 [(16, 1)] = false ∧ Memory.wf 16 8 [(3, 0)] = false ∧ Memory.wf 16 8 [(3, 256)] = false ∧
    Memory.wf 16 8 [(3, 255), (15, 1)] = true := by decide

theorem test_contents_refused :
    HostOp.wellFormed Params.reference (.reset { M := [(2048, 1)], Z := [], zi := [] }) = false ∧
    HostOp.wellFormed Params.reference (.reset { M := [], Z := [(0, 256)], zi := [] }) = false ∧
    HostOp.wellFormed Params.reference (.reset { M := [], Z := [], zi := [(256, 1)] }) = false ∧
    HostOp.wellFormed Params.reference (.reset { M := [(1, 2)], Z := [(4095, 1)], zi := [(255, 1)] }) = true := by
  decide

/-! ## One step each, expected values from spec/95_test_vectors.md -/

/-- V5: a field that straddles two words. -/
theorem test_extract_straddle : after (exec .extract (oneRow 6 3)) (fun t => t.x0 == 6) = true := by decide

/-- V6: a straddling field as wide as a word. -/
theorem test_extract_full_width : after (exec .extract (oneRow 4 8)) (fun t => t.x0 == 0xDB) = true := by decide

/-- V17: the word below `startWord` keeps its value and is not copied from `left`. -/
theorem test_xorrow_skips_prefix :
    after (exec .xorrow (threeRows 2 0 1 1)) (fun t => t.readM 2 0 == 0xAA && t.readM 2 1 == 0xD2) = true := by
  decide

/-- V18b: `dest` is the row of `right`. -/
theorem test_xorrow_dest_is_right :
    after (exec .xorrow (threeRows 1 0 1 0)) (fun t => t.readM 1 0 == 0x1E && t.readM 1 1 == 0xD2) = true := by
  decide

/-- V22: the table is indexed by the field, not by the subset mask. -/
theorem test_build_indexed_by_field :
    after (exec .build fourRows) (fun t =>
      t.readZI 1 == 1 && t.readZI 2 == 3 && t.readZI 3 == 2 && t.readZ 1 0 == 0x15 && t.readZ 2 0 == 0x32 &&
        t.readZ 3 0 == 0x27 && t.tblCnt == 0x80000002) = true := by decide

/-- V25: a zero pivot field makes table row 0 non-zero, without a fault. -/
theorem test_build_zero_field :
    after (exec .build zeroPivotState) (fun t => t.readZ 0 0 == 0x14 && t.readZ 1 0 == 0 && t.status == 0) = true := by
  decide

/-- V33: the fields of the processed rows become zero. -/
theorem test_elim_rows :
    after (exec .elim fourRowsBuilt) (fun t => t.readM 2 0 == 0x38 && t.readM 3 0 == 0x28) = true := by decide

/-- V69: no table since reset. -/
theorem test_elim_without_table :
    after (exec .elim fourRows) (fun t => t.status == 0x00000901 && t.fcmd == 4 && t.M == fourRows.M) = true := by
  decide

/-- V27 and V38 as one command. -/
theorem test_pass_rows :
    after (exec .pass unitField) (fun t => t.readM 1 0 == 0x82 && t.readM 2 0 == 0x06 && t.readZ 1 0 == 0x81) =
      true := by decide

/-- V57: the sum is exact, not modulo 2^32. -/
theorem test_pass_exact_sum :
    after (exec .pass (start 11 2 0 0xFFFFFFFE 3 0 0)) (fun t => t.status == 0x00000401 && t.fcmd == 5) = true := by
  decide

/-- V76: a command is dropped while a fault is recorded. -/
theorem test_step_dropped :
    after (step (withOps faultedState [.regWrite 0x24 0])) (fun t => t == faultedState) = true := by decide

/-- V80: the clearing write keeps `FCMD`. -/
theorem test_step_clears_fault :
    after (step (withOps faultedState [.regWrite 0x14 1])) (fun t => t.status == 0 && t.fcmd == 3) = true := by
  decide

/-- V72: a write of the same value still clears the tag, and the tag's fields stay. -/
theorem test_step_config_clears_tag :
    after (step (withOps fourRowsBuilt [.regWrite 0x0C 4])) (fun t => t.tblCnt == 2 && t.cfgM == 4) = true := by
  decide

/-- V85 to V87. -/
theorem test_step_reads_parameters :
    after (step (withOps State.reset [.regRead 0x00])) (fun t => t.answers == [0x544D4154]) = true ∧
    after (step (withOps State.reset [.regRead 0x04])) (fun t => t.answers == [0x00000808]) = true ∧
    after (step (withOps State.reset [.regRead 0x08])) (fun t => t.answers == [0x00800010]) = true := by decide

/-- V95: word 1 of table row 5 is at word index 81. -/
theorem test_step_reads_table :
    after (step (withOps (withTableRow State.reset 5 0 [0x40, 0x55]) [.hostRead .Z 81]))
      (fun t => t.answers == [0x55]) = true := by decide

/-- V99: the first command after reset, `EXTRACT`, faults with `REF_RANGE`. -/
theorem test_step_withFetchWord :
    after (step (State.reset.withFetchWord 32 1)) (fun t => t.status == 0x00000601 && t.fcmd == 1) = true := by
  decide

/-! ## Witnesses: for every statement with hypotheses, states and operands that meet them -/

/-- For `IllegalWordRaisesIllegalCmd`: the word 0 and the first word above the five. -/
theorem test_witness_IllegalWord :
    (withOps State.reset [.regWrite 0x24 0]).pending = .regWrite 0x24 0 :: [] ∧ (0 : Word).toNat = 0 ∧
      (withOps State.reset [.regWrite 0x24 6]).pending = .regWrite 0x24 6 :: [] ∧ 5 < (6 : Word).toNat := by
  decide

/-- For `StepRunsTheDecodedCommand`. -/
theorem test_witness_StepRuns :
    (withOps fourRows [.regWrite 0x24 3]).pending = .regWrite 0x24 3 :: [] ∧ decode 3 = .ok .build ∧
      Instr.wellFormed .build = true := by decide

/-- For `IdleBlockKeepsItsState`. -/
theorem test_witness_Idle : State.reset.pending = [] := by decide

/-- For `StepStopsOnlyOnNonexistentOperations`: one operation that exists and one that does not. -/
theorem test_witness_StepStops :
    (withOps State.reset [.regRead 0xFC]).pending = .regRead 0xFC :: [] ∧
      (withOps State.reset [.regRead 0x100]).pending = .regRead 0x100 :: [] := by decide

/-- For `NonexistentOperationsStopByName`, each clause at the first value that stops. -/
theorem test_witness_Nonexistent :
    step (withOps State.reset [.regRead 1]) = .fault (.noSuchRegister 1) ∧
    step (withOps State.reset [.regRead 0x100]) = .fault (.noSuchRegister 0x100) ∧
    step (withOps State.reset [.regWrite 0x100 0]) = .fault (.noSuchRegister 0x100) ∧
    step (withOps State.reset [.hostRead .M 2048]) = .fault (.noSuchLocation .M 2048) ∧
    step (withOps State.reset [.hostRead .ZI 256]) = .fault (.noSuchLocation .ZI 256) ∧
    step (withOps State.reset [.hostWrite .Z 0 0]) = .refused (.hostCannotWrite .Z) ∧
    step (withOps State.reset [.hostWrite .M 2048 0]) = .fault (.noSuchLocation .M 2048) ∧
    step (withOps State.reset [.hostWrite .M 2047 256]) = .refused (.valueTooWide 256) :=
  ⟨rfl, rfl, rfl, rfl, rfl, rfl, rfl, rfl⟩

/-- For `ExtractFollowsTheFormula` and `ExtractReturnsTheColumns`: a straddling field, and the field that ends
at the row's last column. -/
theorem test_witness_Extract :
    (oneRow 6 3).params.Legal ∧ (oneRow 6 3).MemoriesWf ∧ (oneRow 6 3).ExtractReady ∧ (oneRow 9 7).ExtractReady := by
  decide

/-- For `ExtractChecksInOrder`: V48, V58 and V63 at their boundary values. -/
theorem test_witness_ExtractChecks :
    ((start 129 2 0 0 0 1 0).faulted = false ∧ ¬ (start 129 2 0 0 0 1 0).CanRun) ∧
    ((start 11 2 0 11 0 1 0).CanRun ∧ ¬ (start 11 2 0 11 0 1 0).NamesRow 11) ∧
    ((start 11 2 0 0 14 3 0).CanRun ∧ (start 11 2 0 0 14 3 0).NamesRow 0 ∧
      ¬ (start 11 2 0 0 14 3 0).FieldOk 14 3) := by decide

/-- For `XorrowWritesTheXor`: `dest` in the matrix and in the table (V19c), and an empty range (V19a). -/
theorem test_witness_Xorrow :
    (threeRows 2 0 1 1).XorrowReady ∧ (rowRef (threeRows 2 0 1 1).x0).table = false ∧
    (threeRows 0x800000C8 0 1 0).XorrowReady ∧ (rowRef (threeRows 0x800000C8 0 1 0).x0).table = true ∧
    (threeRows 2 0 1 2).XorrowReady := by decide

/-- For `XorrowChecksInOrder`: V67 and V65, and a configuration beyond capacity. -/
theorem test_witness_XorrowChecks :
    ((start 3 17 0 1 2 0 17).faulted = false ∧ ¬ (start 3 17 0 1 2 0 17).CanRun) ∧
    ((start 11 2 11 1 2 0 3).CanRun ∧ ¬ (start 11 2 11 1 2 0 3).NamesRow 11) ∧
    ((start 11 2 0 1 2 0 3).CanRun ∧ (start 11 2 0 1 2 0 3).NamesRow 0 ∧ (start 11 2 0 1 2 0 3).NamesRow 1 ∧
      (start 11 2 0 1 2 0 3).NamesRow 2) ∧
    ((start 11 2 0 1 2 2 2).CanRun ∧ (start 11 2 0 1 2 2 2).NamesRow 0 ∧ (start 11 2 0 1 2 2 2).NamesRow 1 ∧
      (start 11 2 0 1 2 2 2).NamesRow 2) := by decide

/-- For the statements about `BUILD` and for `PassIsBuildThenElim` and `PassEliminatesTheWindow`. -/
theorem test_witness_Build :
    fourRows.params.Legal ∧ fourRows.MemoriesWf ∧ fourRows.PassReady ∧ fourRows.IndependentFields := by decide

/-- For `BuildOnIdentityBlockIndexesByMask` (V27). -/
theorem test_witness_BuildIdentity :
    unitField.params.Legal ∧ unitField.PassReady ∧ ∀ i, i < unitField.x2.toNat → unitField.pivotField i = 2 ^ i := by
  decide

/-- For `BuildZeroFillsUnselectedRows`: row 1 is the field of no subset (V25). -/
theorem test_witness_BuildZeroFill :
    zeroPivotState.params.Legal ∧ zeroPivotState.PassReady ∧
      (∀ j, j < 2 ^ zeroPivotState.x2.toNat → zeroPivotState.subsetField j ≠ 1) ∧ zeroPivotState.Touched 0 := by
  decide

/-- For `BuildTableIsTheOrderedFold`: pivot fields that are dependent, a row written twice (V23) and a row 0 that
ends non-zero (V25), with the tables the vectors list. -/
theorem test_witness_BuildFold :
    (dependentFields.params.Legal ∧ dependentFields.PassReady ∧ ¬ dependentFields.IndependentFields ∧
      dependentFields.Touched 0 ∧ dependentFields.builtTable 0 0 = 0x00 ∧ dependentFields.builtTable 1 0 = 0x25 ∧
      dependentFields.builtTable 2 0 = 0x00 ∧ dependentFields.builtTable 3 0 = 0x00) ∧
    (zeroPivotState.PassReady ∧ zeroPivotState.builtTable 0 0 = 0x14 ∧ zeroPivotState.builtTable 1 0 = 0x00) := by
  decide

/-- For `BuildDependsOnPivotRowsOnly`: another table and another processed row. -/
theorem test_witness_BuildDepends :
    let s' := withTableRow (withRow fourRows 2 0 [0x55]) 3 0 [0xFF]
    (fourRows.params.Legal ∧ fourRows.PassReady ∧ s'.PassReady ∧ s'.params = fourRows.params ∧
      s'.x1 = fourRows.x1 ∧ s'.x2 = fourRows.x2 ∧ s'.cfgWds = fourRows.cfgWds) ∧
    ∀ i, i < fourRows.x2.toNat → ∀ w, w < fourRows.cfgWds.toNat →
      s'.readM (fourRows.x1.toNat + i) w = fourRows.readM (fourRows.x1.toNat + i) w := by decide

/-- For `WindowChecksInOrder`: V49, V51, V52, V53, V54 at their boundary values. -/
theorem test_witness_BuildChecks :
    ((start 11 17 0 0 1 0 0).faulted = false ∧ ¬ (start 11 17 0 0 1 0 0).CanRun) ∧
    ((start 11 2 0 6 0 0 0).CanRun ∧ (start 11 2 0 6 0 0 0).x2.toNat = 0) ∧
    ((start 11 2 0 0 9 0 0).CanRun ∧ (start 11 2 0 0 9 0 0).params.sMax < (start 11 2 0 0 9 0 0).x2.toNat) ∧
    ((start 30 2 0 14 3 0 0).CanRun ∧ (start 30 2 0 14 3 0 0).cfgWds.toNat * 8 < 14 + 3) ∧
    ((start 11 2 0 9 3 0 0).CanRun ∧ (start 11 2 0 9 3 0 0).cfgM.toNat < 9 + 3) := by decide

/-- For `ElimXorsTheSelectedRow` and `ElimZeroesTheField`: the state of V33. -/
theorem test_witness_Elim :
    fourRowsBuilt.params.Legal ∧ fourRowsBuilt.MemoriesWf ∧ fourRowsBuilt.ElimReady ∧
      (∀ c, c < 2 ^ fourRowsBuilt.x2.toNat →
        fourRowsBuilt.extract (tableRow c) fourRowsBuilt.x1.toNat fourRowsBuilt.x2.toNat = c) ∧
      fourRowsBuilt.Processed 2 ∧ fourRowsBuilt.Processed 3 := by decide

/-- For `ElimAgainChangesNothing`: the rows of V33 after `ELIM`. -/
theorem test_witness_ElimAgain :
    let s := withRow (withRow fourRowsBuilt 2 0 [0x38]) 3 0 [0x28]
    s.MemoriesWf ∧ s.ElimReady ∧
      (∀ r, r < 4 → s.Processed r → s.extract (matrixRow r) s.x1.toNat s.x2.toNat = 0) ∧
      ∀ w, w < s.cfgWds.toNat → s.readZ 0 w = 0 := by decide

/-- For `ElimChecksInOrder`: V71, no table of this window (V69), and the checks it shares with `BUILD`. -/
theorem test_witness_ElimChecks :
    (fourRows.PassReady ∧ ¬ fourRows.TagIsCurrent) ∧
    ({ fourRowsBuilt with x2 := 1 } : State).PassReady ∧ ¬ ({ fourRowsBuilt with x2 := 1 } : State).TagIsCurrent := by
  decide

/-- For `PassOnZeroPivotRowsKeepsTheMatrix`: V24. -/
theorem test_witness_PassZero :
    let s := withRow (withRow (start 4 1 0 0 2 0 0) 2 0 [0x0A]) 3 0 [0x0F]
    s.params.Legal ∧ s.MemoriesWf ∧ s.PassReady ∧
      ∀ i, i < s.x2.toNat → ∀ w, w < s.cfgWds.toNat → s.readM (s.x1.toNat + i) w = 0 := by decide

/-- For `FaultedBlockDropsCommands` and `StatusWriteClearsTheFault`. -/
theorem test_witness_Faulted :
    (withOps faultedState [.regWrite 0x24 3]).faulted = true ∧
    (∃ t, step (withOps faultedState [.regWrite 0x14 1]) = .next t ∧ t.faulted = false) := by
  exact ⟨by decide, _, rfl, by decide⟩

/-- For `FaultStaysUntilCleared`: a dropped command and a register write, two steps. -/
theorem test_witness_FaultStays :
    let s := withOps faultedState [.regWrite 0x24 3, .regWrite 0x14 0xFFFFFFFE]
    s.faulted = true ∧ (∀ op ∈ s.pending, clearsFault op = false) ∧
      ∃ t, Host.Core.run Sys2Proof.core 2 s = .next t := by
  exact ⟨by decide, by decide, _, rfl⟩

/-- For `FaultingCommandHasNoOtherEffect`. -/
theorem test_witness_FaultingCommand :
    (start 11 2 0 6 0 0 0).faulted = false ∧
      ∃ t, exec .build (start 11 2 0 6 0 0 0) = .next t ∧ t.faulted = true := by
  exact ⟨by decide, _, rfl, by decide⟩

/-- For `ConfigWriteClearsTheTag`, `OperandAndReadOnlyRegisterWrites`, `RegisterReadMap`: one operation each. -/
theorem test_witness_Registers :
    (withOps fourRowsBuilt [.regWrite 0x0C 4]).pending = .regWrite 0x0C 4 :: [] ∧
    (withOps fourRowsBuilt [.regWrite 0x10 1]).pending = .regWrite 0x10 1 :: [] ∧
    (withOps fourRowsBuilt [.regWrite 0x50 7]).pending = .regWrite 0x50 7 :: [] ∧
    (withOps fourRowsBuilt [.regWrite 0xFC 7]).pending = .regWrite 0xFC 7 :: [] ∧
    ((withOps fourRowsBuilt [.regRead 0xFC]).params.Legal ∧
      (withOps fourRowsBuilt [.regRead 0xFC]).pending = .regRead 0xFC :: []) := by decide

/-- For `MatrixWriteStoresOneWord` and `HostReadsReturnTheWord`: the last location of each space. -/
theorem test_witness_HostMemory :
    ((withOps faultedState [.hostWrite .M 2047 255]).pending = .hostWrite .M 2047 255 :: [] ∧
      2047 < Params.reference.mMax * Params.reference.wdsMax ∧ (255 : Word).toNat < 2 ^ Params.reference.W) ∧
    ((withOps faultedState [.hostRead .M 2047]).pending = .hostRead .M 2047 :: []) ∧
    ((withOps faultedState [.hostRead .Z 4095]).pending = .hostRead .Z 4095 :: [] ∧
      4095 < 2 ^ Params.reference.sMax * Params.reference.wdsMax) ∧
    ((withOps faultedState [.hostRead .ZI 255]).pending = .hostRead .ZI 255 :: [] ∧
      255 < 2 ^ Params.reference.sMax) := by decide

/-- For `ResetClearsEveryRegister` and `InvariantHoldsAfterReset`: contents other than the model's own. -/
theorem test_witness_Reset :
    let c : Contents := { M := [(1, 2)], Z := [(4095, 255)], zi := [(255, 1)] }
    (withOps fourRowsBuilt [.reset c]).pending = .reset c :: [] ∧ c.wf fourRowsBuilt.params = true ∧
      Params.reference.Legal := by decide

/-- For `StepKeepsTheInvariant`. -/
theorem test_witness_Invariant :
    (withOps fourRowsBuilt [.regWrite 0x24 4]).Invariant ∧
      ∃ t, step (withOps fourRowsBuilt [.regWrite 0x24 4]) = .next t := by
  exact ⟨by decide, _, rfl⟩

/-- For `UnusedMatrixWordsStayOut`: another value in the first row that is not in use. -/
theorem test_witness_Unused :
    ∀ r w, r < fourRows.cfgM.toNat → w < fourRows.cfgWds.toNat →
      (fourRows.M.write 64 9).read (r * fourRows.params.wdsMax + w) =
        fourRows.M.read (r * fourRows.params.wdsMax + w) := by
  intro r w hr hw
  have hr' : r < 4 := hr
  have hw' : w < 1 := hw
  have hd : fourRows.params.wdsMax = 16 := rfl
  rw [hd]
  exact Memory.read_write_other _ _ (by omega)

/-- For `TableWrittenOnlyByItsCommands`: a step that changes both. -/
theorem test_witness_TableWritten :
    ∃ t, step (withOps fourRows [.regWrite 0x24 3]) = .next t ∧
      t.zi ≠ (withOps fourRows [.regWrite 0x24 3]).zi ∧ t.Z ≠ (withOps fourRows [.regWrite 0x24 3]).Z := by
  exact ⟨_, rfl, by decide, by decide⟩

end Sys2Proof.Tests
end

section
/-! PROOFS. The decoder as the inverse of the encoder, and what a word that no command has does when it is written
to `CMD` (30_encoding.md R70 to R72). -/

namespace Sys2Proof

/-! ## The opcode map and the two fields of a word -/

/-- The fields of every command word, collected from the per-command laws (30_encoding.md R70, R71). -/
theorem opcodeField_of_instr (i : Instr) : Laws.OpcodeField.Statement i := by
  cases i with
  | extract => exact Laws.OpcodeField.extract
  | xorrow => exact Laws.OpcodeField.xorrow
  | build => exact Laws.OpcodeField.build
  | elim => exact Laws.OpcodeField.elim
  | pass => exact Laws.OpcodeField.pass

/-- The two readings of the opcode map of 30_encoding.md R71 agree: no opcode but its own stands for a command. -/
theorem instrOfOpcode_eq_some_iff {op : BitVec 8} {i : Instr} : instrOfOpcode op = some i ↔ op = opcodeOf i := by
  constructor
  · intro h
    unfold instrOfOpcode at h
    split_ifs at h with h1 h2 h3 h4 h5 <;> obtain rfl := Option.some.inj h <;> assumption
  · rintro rfl
    obtain ⟨-, -, hmap⟩ := opcodeField_of_instr i
    exact hmap

/-- `ZERO` and `OP` are all the bits of a word (30_encoding.md R70). -/
theorem zeroField_append_opField (c : Word) : zeroField c ++ opField c = c :=
  (BitVec.extractLsb'_append_extractLsb'_eq_extractLsb' (w := 32) rfl).trans BitVec.extractLsb'_eq_self

/-! ## The decoder -/

/-- A word decodes when its field `ZERO` is zero and its field `OP` is an opcode of the map. -/
theorem decode_eq_ok_iff_fields {c : Word} {i : Instr} :
    decode c = .ok i ↔ zeroField c = 0 ∧ instrOfOpcode (opField c) = some i := by
  unfold decode
  by_cases hz : zeroField c = 0
  · rw [if_neg (not_not.2 hz)]
    cases instrOfOpcode (opField c) <;> simp [hz]
  · rw [if_pos hz]
    exact iff_of_false nofun fun ⟨hzero, _⟩ => hz hzero

/-- The decoder reads a command from its own command word and from no other. -/
theorem decode_eq_ok_iff {c : Word} {i : Instr} : decode c = .ok i ↔ c = encode i := by
  rw [decode_eq_ok_iff_fields, instrOfOpcode_eq_some_iff]
  constructor
  · rintro ⟨hzero, hop⟩
    rw [← zeroField_append_opField c, hzero, hop, encode]
  · rintro rfl
    obtain ⟨hzero, hop, -⟩ := opcodeField_of_instr i
    exact ⟨hzero, hop⟩

/-- The command words are the five values 1 to 5 (30_encoding.md R71). -/
theorem exists_eq_encode_iff (c : Word) : (∃ i, c = encode i) ↔ 1 ≤ c.toNat ∧ c.toNat ≤ 5 := by
  constructor
  · rintro ⟨i, rfl⟩
    cases i <;> decide
  · rintro ⟨hlo, hhi⟩
    have hc : c = BitVec.ofNat 32 c.toNat := by simp
    generalize c.toNat = n at hlo hhi hc
    subst hc
    interval_cases n
    · exact ⟨.extract, rfl⟩
    · exact ⟨.xorrow, rfl⟩
    · exact ⟨.build, rfl⟩
    · exact ⟨.elim, rfl⟩
    · exact ⟨.pass, rfl⟩

/-- The legal words (30_encoding.md R72). -/
theorem exists_decode_eq_ok_iff (c : Word) : (∃ i, decode c = .ok i) ↔ 1 ≤ c.toNat ∧ c.toNat ≤ 5 := by
  simp only [decode_eq_ok_iff, exists_eq_encode_iff]

/-- A word that is not one of the five is rejected, under one of the two names (30_encoding.md R72). -/
theorem exists_decode_eq_error {c : Word} (h : c.toNat = 0 ∨ 5 < c.toNat) : ∃ e, decode c = .error e := by
  cases hd : decode c with
  | error e => exact ⟨e, rfl⟩
  | ok i =>
    have hlegal := (exists_decode_eq_ok_iff c).1 ⟨i, hd⟩
    omega

end Sys2Proof

namespace Sys2Proof.Machine

/-! ## An illegal word written to `CMD` -/

/-- The status word of `ILLEGAL_CMD`: `FAULT` in bit 0 and the code 1 in bits 15:8 (10_state.md R32,
60_exceptions.md R176). -/
theorem faultStatus_illegalCmd : faultStatus .illegalCmd = 0x00000101 := rfl

/-- Dropped while a fault is recorded, else the exception and nothing more (30_encoding.md R72,
60_exceptions.md R180). -/
theorem illegalCommand_eq (c : Word) (s : State) :
    illegalCommand c s = .next (if s.faulted then s else s.raise .illegalCmd c) := by
  unfold illegalCommand
  split <;> rfl

/-- A step on the write of a rejected word to `CMD` is that of an illegal command (45_host_access.md R158). -/
theorem step_of_decode_error {s : State} {c : Word} {rest : List HostOp} {e : IllegalWord}
    (hp : s.pending = .regWrite 0x24 c :: rest) (hd : decode c = .error e) :
    step s = illegalCommand c { s with pending := rest } := by
  rw [step_cons hp, performOp_cmd, writeCmd_of_error hd]

/-! ## The obligations -/

/-- Settles O1: a word decodes to a command exactly when it is the encoding of it, and the five encodings are the
words of the table. -/
theorem commandWordsDecode : Obligations.CommandWordsDecode := by
  unfold Obligations.CommandWordsDecode
  intro c i
  rw [decode_eq_ok_iff]
  cases i <;> simp [encode, opcodeOf]

/-- Settles O4: the words 1 to 5 are the encodings; a word outside them is rejected by the decoder, and the step
is then that of an illegal command. -/
theorem illegalWordRaisesIllegalCmd : Obligations.IllegalWordRaisesIllegalCmd := by
  unfold Obligations.IllegalWordRaisesIllegalCmd
  refine ⟨exists_decode_eq_ok_iff, fun s c rest hp hc => ?_⟩
  obtain ⟨e, hd⟩ := exists_decode_eq_error hc
  rw [step_of_decode_error hp hd, illegalCommand_eq, State.raise, faultStatus_illegalCmd]
  rfl

end Sys2Proof.Machine
end

section
/-! PROOFS. The command `EXTRACT`: which of its checks decides, and the field it writes to `x[0]`
(40_extract.md R91, R92). -/

namespace Sys2Proof.Machine

/-! ## The common check in the terms of `CanRun` -/

/-- A block that can run leaves the cause to the command's own checks (60_exceptions.md R177). -/
theorem firstCause_of_canRun {s : State} (h : s.CanRun) (rest : List (Bool × Cause)) :
    firstCause (cfgCheck s :: rest) = firstCause rest := by
  rw [firstCause_cfgCheck, if_pos ((cfgCheck_fst s).2 h.2)]

/-- With no fault recorded, the one reason why a block cannot run is its configuration (60_exceptions.md R177). -/
theorem firstCause_of_not_canRun {s : State} (hf : s.faulted = false) (h : ¬ s.CanRun)
    (rest : List (Bool × Cause)) : firstCause (cfgCheck s :: rest) = some .cfgRange := by
  rw [firstCause_cfgCheck, if_neg fun hcfg => h ⟨hf, (cfgCheck_fst s).1 hcfg⟩]

/-! ## The checks of `EXTRACT` -/

/-- The cause that the own checks of `EXTRACT` name: the reference decides before the field
(40_extract.md R91). -/
theorem firstCause_extractChecks (s : State) :
    firstCause (extractChecks s) =
      if s.NamesRow s.x1 then if s.FieldOk s.x2.toNat s.x3.toNat then none else some .fieldRange
      else some .refRange := by
  simp only [extractChecks, firstCause_cons, State.refValid_iff, State.fieldExists_iff, firstCause]

/-! ## What `EXTRACT` answers -/

/-- `EXTRACT` is a command like the others, under its word 1 (30_encoding.md R71, R81). -/
theorem exec_extract (s : State) : exec .extract s = command 0x00000001 extractChecks extractEffect s := rfl

/-- A failing check of `EXTRACT` is taken as an exception that names the word 1 (60_exceptions.md R181). -/
theorem exec_extract_of_cause {s : State} {cause : Cause} (hf : s.faulted = false)
    (hc : firstCause (cfgCheck s :: extractChecks s) = some cause) :
    exec .extract s = .next { s with status := faultStatus cause, fcmd := 0x00000001 } := by
  rw [exec_extract, command_of_cause hf hc, State.raise]

/-- `EXTRACT` that runs normally writes the field to `x[0]` (40_extract.md R94). -/
theorem exec_extract_of_ready {s : State} (h : s.ExtractReady) :
    exec .extract s =
      .next { s with x0 := BitVec.ofNat 32 (s.extract (rowRef s.x1) s.x2.toNat s.x3.toNat) } := by
  obtain ⟨hrun, href, hfield⟩ := h
  have hnone : firstCause (cfgCheck s :: extractChecks s) = none := by
    rw [firstCause_of_canRun hrun, firstCause_extractChecks, if_pos href, if_pos hfield]
  rw [exec_extract, command_of_none hrun.1 hnone, extractEffect]

/-! ## The status words of the exceptions of `EXTRACT` (60_exceptions.md R176) -/

theorem faultStatus_cfgRange : faultStatus .cfgRange = 0x00000201 := rfl

theorem faultStatus_refRange : faultStatus .refRange = 0x00000601 := rfl

theorem faultStatus_fieldRange : faultStatus .fieldRange = 0x00000701 := rfl

/-! ## The obligations -/

/-- Settles O9: `EXTRACT` writes the value of `extract`, which on a field that exists is the formula of R92. -/
theorem extractFollowsTheFormula : Obligations.ExtractFollowsTheFormula := by
  unfold Obligations.ExtractFollowsTheFormula
  intro s hready
  have ⟨_, _, hfield⟩ := hready
  rw [exec_extract_of_ready hready, State.extract_eq_formula hfield, fieldFormula]

/-- Settles O11: one clause per check, each failing after those before it have passed. -/
theorem extractChecksInOrder : Obligations.ExtractChecksInOrder := by
  unfold Obligations.ExtractChecksInOrder
  intro s hf
  refine ⟨fun hrun => ?config, fun hrun href => ?reference, fun hrun href hfield => ?field⟩
  case config =>
    rw [exec_extract_of_cause hf (firstCause_of_not_canRun hf hrun _), faultStatus_cfgRange]
  case reference =>
    have hc : firstCause (cfgCheck s :: extractChecks s) = some .refRange := by
      rw [firstCause_of_canRun hrun, firstCause_extractChecks, if_neg href]
    rw [exec_extract_of_cause hf hc, faultStatus_refRange]
  case field =>
    have hc : firstCause (cfgCheck s :: extractChecks s) = some .fieldRange := by
      rw [firstCause_of_canRun hrun, firstCause_extractChecks, if_pos href, if_neg hfield]
    rw [exec_extract_of_cause hf hc, faultStatus_fieldRange]

end Sys2Proof.Machine
end

section
/-! PROOFS. The command `XORROW`: which of its checks decides, the words it writes and all that it leaves
(41_xorinto.md R101 to R107). -/

namespace Sys2Proof.Machine

/-! ## The locations that `xorInto` leaves -/

/-- A write of one word of a row leaves every other location of both row memories (20_memory.md R52, R53). -/
theorem State.read_writeRow_other (s : State) (dest : RowRef) {w a : Nat} (v : Word)
    (ha : a ≠ dest.idx * s.params.wdsMax + w) :
    (s.writeRow dest w v).M.read a = s.M.read a ∧ (s.writeRow dest w v).Z.read a = s.Z.read a := by
  unfold State.writeRow
  split
  · exact ⟨rfl, Memory.read_write_other s.Z v ha⟩
  · exact ⟨Memory.read_write_other s.M v ha, rfl⟩

/-- `xorInto` leaves every location but those of the words of `dest` in its range (41_xorinto.md R102). -/
theorem read_xorInto_other (dest left right : RowRef) {k n a : Nat} (s : State)
    (ha : ∀ w, k ≤ w → w < n → a ≠ dest.idx * s.params.wdsMax + w) :
    (xorInto dest left right k n s).M.read a = s.M.read a ∧
      (xorInto dest left right k n s).Z.read a = s.Z.read a := by
  have key : (xorInto dest left right k n s).params = s.params ∧
      (xorInto dest left right k n s).M.read a = s.M.read a ∧
      (xorInto dest left right k n s).Z.read a = s.Z.read a := by
    unfold xorInto
    refine forRange_keeps
      (P := fun t : State => t.params = s.params ∧ t.M.read a = s.M.read a ∧ t.Z.read a = s.Z.read a)
      ⟨rfl, rfl, rfl⟩ fun w t hkw hwn ⟨hp, hM, hZ⟩ => ?_
    obtain ⟨hM', hZ'⟩ := t.read_writeRow_other dest (t.readRow left w ^^^ t.readRow right w)
      (hp ▸ ha w hkw hwn)
    exact ⟨by rw [State.writeRow_params, hp], hM'.trans hM, hZ'.trans hZ⟩
  exact key.2

/-- `xorInto` records no fault and clears none (41_xorinto.md R103). -/
@[simp] theorem xorInto_faulted (dest left right : RowRef) (k n : Nat) (s : State) :
    (xorInto dest left right k n s).faulted = s.faulted := by
  rw [xorInto_frame]
  rfl

/-! ## The checks of `XORROW` -/

/-- The cause that the own checks of `XORROW` name: the three references decide before the length
(41_xorinto.md R101). -/
theorem firstCause_xorrowChecks (s : State) :
    firstCause (xorrowChecks s) =
      if s.NamesRow s.x0 ∧ s.NamesRow s.x1 ∧ s.NamesRow s.x2 then
        if s.x4.toNat = s.cfgWds.toNat then none else some .lengthMismatch
      else some .refRange := by
  simp only [xorrowChecks, firstCause_cons, State.refValid_iff, decide_eq_true_eq, firstCause, ite_and]

/-! ## What `XORROW` answers -/

/-- `XORROW` is a command like the others, under its word 2 (30_encoding.md R71, R81). -/
theorem exec_xorrow (s : State) : exec .xorrow s = command 0x00000002 xorrowChecks xorrowEffect s := rfl

/-- A failing check of `XORROW` is taken as an exception that names the word 2 (60_exceptions.md R181). -/
theorem exec_xorrow_of_cause {s : State} {cause : Cause} (hf : s.faulted = false)
    (hc : firstCause (cfgCheck s :: xorrowChecks s) = some cause) :
    exec .xorrow s = .next { s with status := faultStatus cause, fcmd := 0x00000002 } := by
  rw [exec_xorrow, command_of_cause hf hc, State.raise]

/-- `XORROW` that runs normally is `xorInto` on its operands, up to the length of a row (41_xorinto.md R103). -/
theorem exec_xorrow_of_ready {s : State} (h : s.XorrowReady) :
    exec .xorrow s =
      .next (xorInto (rowRef s.x0) (rowRef s.x1) (rowRef s.x2) s.x3.toNat s.cfgWds.toNat s) := by
  obtain ⟨hrun, hdest, hleft, hright, hlength⟩ := h
  have hnone : firstCause (cfgCheck s :: xorrowChecks s) = none := by
    rw [firstCause_of_canRun hrun, firstCause_xorrowChecks, if_pos ⟨hdest, hleft, hright⟩, if_pos hlength]
  rw [exec_xorrow, command_of_none hrun.1 hnone, xorrowEffect, hlength]

/-- The status word of `LENGTH_MISMATCH` (60_exceptions.md R176). -/
theorem faultStatus_lengthMismatch : faultStatus .lengthMismatch = 0x00000801 := rfl

/-! ## The obligations -/

/-- Settles O12: the answer is that of `xorInto` on the operands, whose words in the range are the XOR of the old
words for any aliasing, and which leaves the other memory and every other location. -/
theorem xorrowWritesTheXor : Obligations.XorrowWritesTheXor := by
  unfold Obligations.XorrowWritesTheXor
  intro s hready
  have ⟨⟨_, _, hwds⟩, _⟩ := hready
  obtain ⟨hframe, hZ, hM, hwords⟩ := xorInto_spec (rowRef s.x0) (rowRef s.x1) (rowRef s.x2)
    (k := s.x3.toNat) (s := s) hwds
  refine ⟨_, exec_xorrow_of_ready hready, hframe, fun hempty => xorInto_of_le _ _ _ hempty s,
    fun w hstart hend => ?word, fun htable => ⟨hZ htable, fun a ha => ?matrix⟩,
    fun htable => ⟨hM htable, fun a ha => ?table⟩⟩
  case word => rw [hwords _ w (by omega), if_pos ⟨rfl, hstart, hend⟩]
  case matrix => exact (read_xorInto_other _ _ _ s ha).1
  case table => exact (read_xorInto_other _ _ _ s ha).2

/-- Settles O13: one clause per check, each failing after those before it have passed; with none failing the
answer is that of `xorInto`, which records no fault. -/
theorem xorrowChecksInOrder : Obligations.XorrowChecksInOrder := by
  unfold Obligations.XorrowChecksInOrder
  intro s hf
  refine ⟨fun hrun => ?config, fun hrun hrefs => ?reference, fun hrun hdest hleft hright hlength => ?length,
    fun hrun hdest hleft hright hlength => ?pass⟩
  case config =>
    rw [exec_xorrow_of_cause hf (firstCause_of_not_canRun hf hrun _), faultStatus_cfgRange]
  case reference =>
    have hc : firstCause (cfgCheck s :: xorrowChecks s) = some .refRange := by
      rw [firstCause_of_canRun hrun, firstCause_xorrowChecks, if_neg hrefs]
    rw [exec_xorrow_of_cause hf hc, faultStatus_refRange]
  case length =>
    have hc : firstCause (cfgCheck s :: xorrowChecks s) = some .lengthMismatch := by
      rw [firstCause_of_canRun hrun, firstCause_xorrowChecks, if_pos ⟨hdest, hleft, hright⟩, if_neg hlength]
    rw [exec_xorrow_of_cause hf hc, faultStatus_lengthMismatch]
  case pass =>
    refine ⟨_, exec_xorrow_of_ready ⟨hrun, hdest, hleft, hright, hlength⟩, ?_, fun hempty => ?_⟩
    · rw [xorInto_faulted, hf]
    · exact xorInto_of_le _ _ _ (hlength ▸ hempty) s

end Sys2Proof.Machine
end

section
/-! PROOFS. The checks that `BUILD`, `ELIM` and `PASS` share, and the exception that each of the three commands
takes when one of them fails (42_buildtable.md R111, 43_eliminate.md R131, 44_pass.md R146). -/

namespace Sys2Proof.Machine

/-! ## Which of the shared checks decides -/

/-- Further checks decide only when no check before them does (60_exceptions.md R178). -/
theorem firstCause_append (l rest : List (Bool × Cause)) :
    firstCause (l ++ rest) = (firstCause l).or (firstCause rest) := by
  induction l with
  | nil => rfl
  | cons p l ih =>
    obtain ⟨ok, cause⟩ := p
    rw [List.cons_append, firstCause_cons, firstCause_cons, ih]
    split <;> rfl

/-- The cause that the shared checks name: the pivot count, then the window's columns, then its rows
(42_buildtable.md R111). -/
theorem firstCause_windowChecks (s : State) :
    firstCause (windowChecks s) =
      if 1 ≤ s.x2.toNat ∧ s.x2.toNat ≤ s.params.sMax then
        if s.x1.toNat + s.x2.toNat ≤ s.cfgWds.toNat * s.params.W then
          if s.x1.toNat + s.x2.toNat ≤ s.cfgM.toNat then none else some .rowRange
        else some .windowRange
      else some .sRange := by
  simp only [windowChecks, firstCause_cons, Bool.and_eq_true, decide_eq_true_eq, firstCause, State.rowBits,
    State.wds, State.m]

/-! ## What the three commands answer when one of them fails -/

/-- `BUILD` is a command like the others, under its word 3 (30_encoding.md R71, R81). -/
theorem exec_build (s : State) : exec .build s = command 0x00000003 windowChecks buildEffect s := rfl

/-- `ELIM` is a command like the others, under its word 4 (30_encoding.md R71, R81). -/
theorem exec_elim (s : State) : exec .elim s = command 0x00000004 elimChecks elimEffect s := rfl

/-- `PASS` is a command like the others, under its word 5 (30_encoding.md R71, R81). -/
theorem exec_pass (s : State) : exec .pass s = command 0x00000005 windowChecks passEffect s := rfl

/-- A cause that the common check or a shared one names decides for `ELIM`, whatever the table tag is
(43_eliminate.md R131). -/
theorem firstCause_elimChecks_of_windowCause {s : State} {cause : Cause}
    (hc : firstCause (cfgCheck s :: windowChecks s) = some cause) :
    firstCause (cfgCheck s :: elimChecks s) = some cause := by
  rw [elimChecks, ← List.cons_append, firstCause_append, hc, Option.some_or]

/-- A cause that the common check or a shared one names is taken as an exception by each of the three commands,
under its own word (60_exceptions.md R181). -/
theorem exec_of_windowCause {s : State} {i : Instr} {word : Word} {cause : Cause}
    (hi : (i = .build ∧ word = 0x00000003) ∨ (i = .elim ∧ word = 0x00000004) ∨
      (i = .pass ∧ word = 0x00000005))
    (hf : s.faulted = false) (hc : firstCause (cfgCheck s :: windowChecks s) = some cause) :
    exec i s = .next { s with status := faultStatus cause, fcmd := word } := by
  obtain ⟨rfl, rfl⟩ | ⟨rfl, rfl⟩ | ⟨rfl, rfl⟩ := hi
  · rw [exec_build, command_of_cause hf hc, State.raise]
  · rw [exec_elim, command_of_cause hf (firstCause_elimChecks_of_windowCause hc), State.raise]
  · rw [exec_pass, command_of_cause hf hc, State.raise]

/-! ## The status words of the exceptions of the shared checks (60_exceptions.md R176) -/

theorem faultStatus_sRange : faultStatus .sRange = 0x00000301 := rfl

theorem faultStatus_windowRange : faultStatus .windowRange = 0x00000401 := rfl

theorem faultStatus_rowRange : faultStatus .rowRange = 0x00000501 := rfl

/-! ## The obligation -/

/-- Settles O21: one clause per check, each failing after those before it have passed. -/
theorem windowChecksInOrder : Obligations.WindowChecksInOrder := by
  unfold Obligations.WindowChecksInOrder
  intro s i word hi hf
  refine ⟨fun hrun => ?config, fun hrun hcount => ?count, fun hrun hlo hhi hwindow => ?window,
    fun hrun hlo hhi hwindow hrows => ?rows⟩
  case config =>
    rw [exec_of_windowCause hi hf (firstCause_of_not_canRun hf hrun _), faultStatus_cfgRange]
  case count =>
    have hc : firstCause (cfgCheck s :: windowChecks s) = some .sRange := by
      rw [firstCause_of_canRun hrun, firstCause_windowChecks, if_neg (by omega)]
    rw [exec_of_windowCause hi hf hc, faultStatus_sRange]
  case window =>
    have hc : firstCause (cfgCheck s :: windowChecks s) = some .windowRange := by
      rw [firstCause_of_canRun hrun, firstCause_windowChecks, if_pos ⟨hlo, hhi⟩, if_neg (by omega)]
    rw [exec_of_windowCause hi hf hc, faultStatus_windowRange]
  case rows =>
    have hc : firstCause (cfgCheck s :: windowChecks s) = some .rowRange := by
      rw [firstCause_of_canRun hrun, firstCause_windowChecks, if_pos ⟨hlo, hhi⟩, if_pos hwindow,
        if_neg (by omega)]
    rw [exec_of_windowCause hi hf hc, faultStatus_rowRange]

end Sys2Proof.Machine
end

section
/-! PROOFS. The command `ELIM`: the checks it shares with `BUILD` and `PASS` decide first, then that of the table
tag (43_eliminate.md R131). -/

namespace Sys2Proof.Machine

/-! ## The checks of `ELIM` -/

/-- With the operands of a pass in order, neither the common check nor a shared one names a cause
(42_buildtable.md R111). -/
theorem firstCause_windowChecks_of_passReady {s : State} (h : s.PassReady) :
    firstCause (cfgCheck s :: windowChecks s) = none := by
  obtain ⟨hrun, hcount, hwindow, hrows⟩ := h
  rw [firstCause_of_canRun hrun, firstCause_windowChecks, if_pos hcount, if_pos hwindow, if_pos hrows]

/-- With the operands of a pass in order, the table tag alone decides for `ELIM` (43_eliminate.md R131). -/
theorem firstCause_elimChecks_of_passReady {s : State} (h : s.PassReady) :
    firstCause (cfgCheck s :: elimChecks s) = if s.TagIsCurrent then none else some .tableMismatch := by
  rw [elimChecks, ← List.cons_append, firstCause_append, firstCause_windowChecks_of_passReady h, Option.none_or,
    firstCause_cons]
  simp only [State.tagMatches_iff, firstCause]

/-! ## What `ELIM` answers when the tag does not match -/

/-- The status word of `TABLE_MISMATCH` (60_exceptions.md R176). -/
theorem faultStatus_tableMismatch : faultStatus .tableMismatch = 0x00000901 := rfl

/-- A tag of another window, or none, is taken as an exception that names the word 4 (43_eliminate.md R131,
60_exceptions.md R181). -/
theorem exec_elim_of_not_tagIsCurrent {s : State} (h : s.PassReady) (htag : ¬ s.TagIsCurrent) :
    exec .elim s = .next { s with status := 0x00000901, fcmd := 0x00000004 } := by
  have hc : firstCause (cfgCheck s :: elimChecks s) = some .tableMismatch := by
    rw [firstCause_elimChecks_of_passReady h, if_neg htag]
  have ⟨⟨hf, _⟩, _⟩ := h
  rw [exec_elim, command_of_cause hf hc, State.raise, faultStatus_tableMismatch]

/-! ## The obligation -/

/-- Settles O25: the first four clauses are those of the shared checks at the word of `ELIM`; the fifth is the check
of the table tag, which decides once the others have passed. -/
theorem elimChecksInOrder : Obligations.ElimChecksInOrder := by
  unfold Obligations.ElimChecksInOrder
  intro s hf
  obtain ⟨hconfig, hcount, hwindow, hrows⟩ :=
    windowChecksInOrder s .elim 0x00000004 (.inr (.inl ⟨rfl, rfl⟩)) hf
  exact ⟨hconfig, hcount, hwindow, hrows, exec_elim_of_not_tagIsCurrent⟩

end Sys2Proof.Machine
end

section
/-! PROOFS. The host's accesses to the registers: what a read of an offset returns, and what a write of the
configuration does to the table tag (45_host_access.md R156, R157, R166). -/

namespace Sys2Proof.Machine

/-! ## A register access at an offset that exists -/

/-- The offsets of the space `REG` in plain arithmetic (20_memory.md R50). -/
theorem regOffsetExists_iff (off : Nat) : regOffsetExists off = true ↔ off % 4 = 0 ∧ off ≤ 0xFC := by
  rw [regOffsetExists, Bool.and_eq_true, decide_eq_true_eq, decide_eq_true_eq]

/-- A `RegRead` gives the host the value of the register at its offset (45_host_access.md R156). -/
theorem performOp_regRead {off : Nat} (h4 : off % 4 = 0) (hmax : off ≤ 0xFC) (s : State) :
    performOp (.regRead off) s = .next (s.answer (readReg s (regAt off))) :=
  if_pos ((regOffsetExists_iff off).2 ⟨h4, hmax⟩)

/-- A `RegWrite` writes the register at its offset (45_host_access.md R157). -/
theorem performOp_regWrite {off : Nat} (h4 : off % 4 = 0) (hmax : off ≤ 0xFC) (v : Word) (s : State) :
    performOp (.regWrite off v) s = writeReg (regAt off) v s :=
  if_pos ((regOffsetExists_iff off).2 ⟨h4, hmax⟩)

/-- A step on a `RegWrite` takes it off the host's list and writes the register at its offset. -/
theorem step_regWrite {s : State} {off : Nat} {v : Word} {rest : List HostOp}
    (hp : s.pending = .regWrite off v :: rest) (h4 : off % 4 = 0) (hmax : off ≤ 0xFC) :
    step s = writeReg (regAt off) v { s with pending := rest } := by
  rw [step_cons hp, performOp_regWrite h4 hmax]

/-! ## The two parameter words -/

/-- The low part of a concatenation counts units, the high part multiples of the low part's range. -/
theorem toNat_append_eq_add {m n : Nat} (x : BitVec m) (y : BitVec n) :
    (x ++ y).toNat = x.toNat * 2 ^ n + y.toNat := by
  rw [BitVec.toNat_append, ← Nat.shiftLeft_add_eq_or_of_lt y.isLt, Nat.shiftLeft_eq]

/-- `PARAM0` in arithmetic: each legal parameter fits its field (10_state.md R28). -/
theorem param0Value_eq {p : Params} (h : p.Legal) : param0Value p = BitVec.ofNat 32 (p.W + 2 ^ 8 * p.sMax) := by
  obtain ⟨⟨-, hW⟩, ⟨-, hS⟩, -, -⟩ := h
  have hS16 : p.sMax ≤ 16 := hS.trans (min_le_right _ _)
  apply BitVec.eq_of_toNat_eq
  simp only [param0Value, toNat_append_eq_add, BitVec.ofNat_eq_ofNat, BitVec.toNat_ofNat]
  omega

/-- `PARAM1` in arithmetic: each legal parameter fits its field (10_state.md R29). -/
theorem param1Value_eq {p : Params} (h : p.Legal) :
    param1Value p = BitVec.ofNat 32 (p.wdsMax + 2 ^ 16 * p.mMax) := by
  obtain ⟨-, -, ⟨-, hwds⟩, -, hm⟩ := h
  apply BitVec.eq_of_toNat_eq
  simp only [param1Value, toNat_append_eq_add, BitVec.toNat_ofNat]
  omega

/-! ## The table tag after a write of the configuration -/

/-- Clearing `VALID` keeps the 31 bits below it and no other (45_host_access.md R166). -/
theorem getLsbD_clearedTblCnt (c : Word) (b : Nat) :
    (clearedTblCnt c).getLsbD b = (c.getLsbD b && decide (b < 31)) := by
  have hmask : (0x7FFFFFFF : Word).getLsbD b = decide (b < 31) := Nat.testBit_two_pow_sub_one 31 b
  rw [clearedTblCnt, BitVec.getLsbD_and, hmask]

/-- The bit `VALID` is gone (45_host_access.md R166). -/
theorem getLsbD_clearedTblCnt_valid (c : Word) : (clearedTblCnt c).getLsbD 31 = false := by
  rw [getLsbD_clearedTblCnt, decide_eq_false (lt_irrefl 31), Bool.and_false]

/-- Every other bit is kept, the field `S` with them (45_host_access.md R166). -/
theorem getLsbD_clearedTblCnt_of_lt (c : Word) {b : Nat} (hb : b < 31) :
    (clearedTblCnt c).getLsbD b = c.getLsbD b := by
  rw [getLsbD_clearedTblCnt, decide_eq_true hb, Bool.and_true]

/-! ## The obligations -/

/-- Settles O33: a write of either register answers the state with that register stored and `VALID` cleared. -/
theorem configWriteClearsTheTag : Obligations.ConfigWriteClearsTheTag := by
  unfold Obligations.ConfigWriteClearsTheTag
  intro s v rest
  refine ⟨fun hp => ?cfgM, fun hp => ?cfgWds⟩
  case cfgM =>
    exact ⟨{ s with pending := rest, cfgM := v, tblCnt := clearedTblCnt s.tblCnt },
      step_regWrite hp (by decide) (by decide), rfl, getLsbD_clearedTblCnt_valid s.tblCnt,
      fun _ hb => getLsbD_clearedTblCnt_of_lt s.tblCnt hb⟩
  case cfgWds =>
    exact ⟨{ s with pending := rest, cfgWds := v, tblCnt := clearedTblCnt s.tblCnt },
      step_regWrite hp (by decide) (by decide), rfl, getLsbD_clearedTblCnt_valid s.tblCnt,
      fun _ hb => getLsbD_clearedTblCnt_of_lt s.tblCnt hb⟩

/-- Settles O35: one case per offset of the register map; only the two parameter words need arithmetic. -/
theorem registerReadMap : Obligations.RegisterReadMap := by
  unfold Obligations.RegisterReadMap
  intro s off rest hlegal hp h4 hmax v
  have hread : readReg { s with pending := rest } (regAt off) = v := by
    unfold regAt
    split
    case h_2 => exact param0Value_eq hlegal
    case h_3 => exact param1Value_eq hlegal
    case h_16 => simp_all only [readReg, v, imp_false, if_false]
    all_goals rfl
  rw [step_cons hp, performOp_regRead h4 hmax, hread]
  rfl

end Sys2Proof.Machine
end

section
/-! PROOFS. Which host operations clear a recorded fault: a write of `STATUS` with bit 0 set and a reset, no other
(45_host_access.md R167, 60_exceptions.md R180). -/

namespace Sys2Proof.Machine

/-! ## A write of any other register -/

/-- While a fault is recorded every command is dropped (60_exceptions.md R180). -/
theorem exec_of_faulted {s : State} (hf : s.faulted = true) (i : Instr) : exec i s = .next s := by
  cases i with
  | extract => exact command_of_faulted hf
  | xorrow => exact command_of_faulted hf
  | build => exact command_of_faulted hf
  | elim => exact command_of_faulted hf
  | pass => exact command_of_faulted hf

/-- While a fault is recorded a write of `CMD` is dropped, whatever the word (60_exceptions.md R180). -/
theorem writeCmd_of_faulted {s : State} (hf : s.faulted = true) (c : Word) : writeCmd c s = .next s := by
  cases hd : decode c with
  | ok i => rw [writeCmd_of_ok hd, exec_of_faulted hf]
  | error e => rw [writeCmd_of_error hd, illegalCommand_eq, if_pos hf]

/-- The offset 0x14 is the one of `STATUS` (10_state.md R26). -/
theorem regAt_eq_status_iff {off : Nat} : regAt off = .status ↔ off = 0x14 := by
  constructor
  · intro h
    unfold regAt at h
    split at h
    case h_6 => rfl
    all_goals cases h
  · rintro rfl
    rfl

/-- A write of `STATUS` clears the fault when bit 0 of the value is set (45_host_access.md R167). -/
theorem writeReg_status (v : Word) (s : State) :
    writeReg .status v s = .next (if v.getLsbD 0 then s.clearFault else s) := rfl

/-- ALL that a write of a register can do to a recorded fault: keep it, or clear it by the value written to
`STATUS` (45_host_access.md R167). -/
theorem writeReg_keeps_fault_or_clears {r : Reg} {v : Word} {s t : State} (hf : s.faulted = true)
    (h : writeReg r v s = .next t) : t.faulted = true ∨ r = .status ∧ v.getLsbD 0 = true := by
  cases r
  case cmd =>
    have hdrop : writeReg .cmd v s = .next s := writeCmd_of_faulted hf v
    obtain rfl := Host.Outcome.next.inj (hdrop.symm.trans h)
    exact .inl hf
  case status =>
    rw [writeReg_status] at h
    cases hv : v.getLsbD 0 with
    | true => exact .inr ⟨rfl, rfl⟩
    | false =>
      rw [hv, if_neg Bool.false_ne_true] at h
      obtain rfl := Host.Outcome.next.inj h
      exact .inl hf
  all_goals
    obtain rfl := Host.Outcome.next.inj h
    exact .inl hf

/-! ## Every host operation -/

/-- ALL that a host operation can answer, with what it takes for the operation to exist (45_host_access.md R155 to
R163). -/
theorem performOp_cases {op : HostOp} {s t : State} (h : performOp op s = .next t) :
    (∃ off, op = .regRead off ∧ regOffsetExists off = true ∧ t = s.answer (readReg s (regAt off))) ∨
    (∃ off v, op = .regWrite off v ∧ regOffsetExists off = true ∧ writeReg (regAt off) v s = .next t) ∨
    (∃ space idx, op = .hostRead space idx ∧ idx < space.size s.params ∧
      t = s.answer (s.hostWord space idx)) ∨
    (∃ idx v, op = .hostWrite .M idx v ∧ idx < s.params.sizeM ∧ v.toNat < 2 ^ s.params.W ∧
      t = s.hostStore idx v) ∨
    (∃ c, op = .reset c ∧ c.wf s.params = true ∧ t = s.hardReset c) := by
  cases op <;> simp only [performOp] at h
  case regRead off =>
    split_ifs at h with hoff
    exact .inl ⟨off, rfl, hoff, (Host.Outcome.next.inj h).symm⟩
  case regWrite off v =>
    split_ifs at h with hoff
    exact .inr (.inl ⟨off, v, rfl, hoff, h⟩)
  case hostRead space idx =>
    split_ifs at h with hidx
    exact .inr (.inr (.inl ⟨space, idx, rfl, hidx, (Host.Outcome.next.inj h).symm⟩))
  case hostWrite space idx v =>
    split_ifs at h with hspace hidx hv
    obtain rfl := not_not.1 hspace
    exact .inr (.inr (.inr (.inl
      ⟨idx, v, rfl, hidx, hv, (Host.Outcome.next.inj h).symm⟩)))
  case reset c =>
    split_ifs at h with hc
    exact .inr (.inr (.inr (.inr ⟨c, rfl, hc, (Host.Outcome.next.inj h).symm⟩)))

/-- A host operation keeps a recorded fault or is one of those that clear it (45_host_access.md R167). -/
theorem performOp_keeps_fault_or_clears {op : HostOp} {s t : State} (hf : s.faulted = true)
    (h : performOp op s = .next t) : t.faulted = true ∨ clearsFault op = true := by
  obtain ⟨off, rfl, -, rfl⟩ | ⟨off, v, rfl, -, hwrite⟩ | ⟨space, idx, rfl, -, rfl⟩ |
    ⟨idx, v, rfl, -, -, rfl⟩ | ⟨c, rfl, -, -⟩ := performOp_cases h
  · exact .inl hf
  · refine (writeReg_keeps_fault_or_clears hf hwrite).imp_right fun ⟨hreg, hv⟩ => ?_
    simp only [clearsFault, regAt_eq_status_iff.1 hreg, hv, decide_true, Bool.and_true]
  · exact .inl hf
  · exact .inl hf
  · exact .inr rfl

/-! ## The obligation -/

/-- Settles O32: the first half is the write of `STATUS` itself; for the second, the operation that the step takes
off the host's list has to be one that clears the fault. -/
theorem statusWriteClearsTheFault : Obligations.StatusWriteClearsTheFault := by
  unfold Obligations.StatusWriteClearsTheFault
  refine ⟨fun s v rest hp => ?write, fun s t hf hstep ht => ?only⟩
  case write => exact step_regWrite hp (by decide) (by decide)
  case only =>
    cases hp : s.pending with
    | nil =>
      obtain rfl := Host.Outcome.next.inj ((step_nil hp).symm.trans hstep)
      exact absurd hf (Bool.eq_false_iff.1 ht)
    | cons op rest =>
      have hop : performOp op { s with pending := rest } = .next t := (step_cons hp).symm.trans hstep
      have hcases := performOp_keeps_fault_or_clears (s := { s with pending := rest }) hf hop
      exact ⟨op, rest, rfl, hcases.resolve_left (Bool.eq_false_iff.1 ht)⟩

end Sys2Proof.Machine
end

section
/-! PROOFS. The host's accesses to the three memories (45_host_access.md R159 to R161). -/

namespace Sys2Proof.Machine

/-! ## The location that an index names -/

/-- The word that the host finds at an index of `M` is the one of its row (45_host_access.md R159). -/
theorem State.readM_div_mod (s : State) (idx : Nat) :
    s.readM (idx / s.params.wdsMax) (idx % s.params.wdsMax) = s.M.read idx := by
  rw [State.readM, Nat.div_add_mod']

/-- The word that the host finds at an index of `Z` is the one of its row (45_host_access.md R161). -/
theorem State.readZ_div_mod (s : State) (idx : Nat) :
    s.readZ (idx / s.params.wdsMax) (idx % s.params.wdsMax) = s.Z.read idx := by
  rw [State.readZ, Nat.div_add_mod']

/-! ## A memory access inside its space -/

/-- A read gives the host the word at its index (45_host_access.md R159, R161). -/
theorem performOp_hostRead {s : State} {space : Space} {idx : Nat} (hidx : idx < space.size s.params) :
    performOp (.hostRead space idx) s = .next (s.answer (s.hostWord space idx)) :=
  if_pos hidx

/-- A write of a value as wide as a word stores it at its index of `M` (45_host_access.md R160). -/
theorem performOp_hostWrite {s : State} {idx : Nat} {v : Word} (hidx : idx < s.params.sizeM)
    (hv : v.toNat < 2 ^ s.params.W) : performOp (.hostWrite .M idx v) s = .next (s.hostStore idx v) := by
  have hsize : idx < Space.M.size s.params := hidx
  rw [performOp, if_neg (not_not.2 rfl), if_neg (not_not.2 hsize), if_neg (not_not.2 hv)]

/-- A step on a read takes it off the host's list and appends the word at its index to the answers. -/
theorem step_hostRead {s : State} {space : Space} {idx : Nat} {rest : List HostOp}
    (hp : s.pending = .hostRead space idx :: rest) (hidx : idx < space.size s.params) :
    step s = .next { s with pending := rest, answers := s.answers ++ [s.hostWord space idx] } := by
  have hop := performOp_hostRead (s := { s with pending := rest }) hidx
  rw [step_cons hp, hop]
  cases space <;> rfl

/-! ## The obligations -/

/-- Settles O36: the write stores at its index, which is that of its row and word, and nowhere else. -/
theorem matrixWriteStoresOneWord : Obligations.MatrixWriteStoresOneWord := by
  unfold Obligations.MatrixWriteStoresOneWord
  intro s idx v rest hp hidx hv
  let t : State := { s with pending := rest, M := s.M.write idx v }
  have hstep : step s = .next t := (step_cons hp).trans (performOp_hostWrite hidx hv)
  have hread : t.readM (idx / s.params.wdsMax) (idx % s.params.wdsMax) = v :=
    (State.readM_div_mod t idx).trans (Memory.read_write_same s.M idx v)
  exact ⟨t, hstep, rfl, hread, fun a ha => Memory.read_write_other s.M v ha⟩

/-- Settles O37: in each space the word at the index is the one that the block's own commands read there. -/
theorem hostReadsReturnTheWord : Obligations.HostReadsReturnTheWord := by
  unfold Obligations.HostReadsReturnTheWord
  intro s idx rest row word
  refine ⟨fun hp hidx => ?M, fun hp hidx => ?Z, fun hp hidx => step_hostRead hp hidx⟩
  case M =>
    rw [step_hostRead hp hidx, State.readM_div_mod]
    rfl
  case Z =>
    rw [step_hostRead hp hidx, State.readZ_div_mod]
    rfl

end Sys2Proof.Machine
end

section
/-! PROOFS. All that a command can answer: each runs in the same frame, with checks and an effect of its own; the
frame of each effect; and what a command that faults leaves (10_state.md sections 2 to 7, 60_exceptions.md
sections 2 and 3). -/

namespace Sys2Proof.Machine

/-! ## The five commands as one -/

/-- The checks that a command makes after the common one, in order (40_extract.md R91, 41_xorinto.md R101,
42_buildtable.md R111, 43_eliminate.md R131, 44_pass.md R146). -/
def checksOf (i : Instr) : State → List (Bool × Cause) :=
  match i with
  | .extract => extractChecks
  | .xorrow => xorrowChecks
  | .build => windowChecks
  | .elim => elimChecks
  | .pass => windowChecks

/-- What a command does once its checks have passed. -/
def effectOf (i : Instr) : State → State :=
  match i with
  | .extract => extractEffect
  | .xorrow => xorrowEffect
  | .build => buildEffect
  | .elim => elimEffect
  | .pass => passEffect

/-- Every command runs in the frame of 30_encoding.md R81, under its own command word. -/
theorem exec_eq_command (i : Instr) (s : State) :
    exec i s = command (encode i) (checksOf i) (effectOf i) s := by
  cases i <;> rfl

/-- ALL that a command can answer: dropped, an exception under its own word, or its effect. -/
theorem exec_cases {i : Instr} {s t : State} (h : exec i s = .next t) :
    (s.faulted = true ∧ t = s) ∨
    (s.faulted = false ∧ ∃ cause, firstCause (cfgCheck s :: checksOf i s) = some cause ∧
      t = s.raise cause (encode i)) ∨
    (s.faulted = false ∧ firstCause (cfgCheck s :: checksOf i s) = none ∧ t = effectOf i s) :=
  command_cases (exec_eq_command i s ▸ h)

/-- No command ends in a stop. -/
theorem exists_exec_eq_next (i : Instr) (s : State) : ∃ t, exec i s = .next t := by
  rw [exec_eq_command, command]
  split
  · exact ⟨s, rfl⟩
  · split
    · exact ⟨_, rfl⟩
    · exact ⟨_, rfl⟩

/-! ## The fields that the procedures of the commands leave -/

@[simp] theorem xorInto_x0 (dest left right : RowRef) (k n : Nat) (s : State) :
    (xorInto dest left right k n s).x0 = s.x0 := by rw [xorInto_frame]
@[simp] theorem xorInto_zi (dest left right : RowRef) (k n : Nat) (s : State) :
    (xorInto dest left right k n s).zi = s.zi := by rw [xorInto_frame]
@[simp] theorem xorInto_tblOff (dest left right : RowRef) (k n : Nat) (s : State) :
    (xorInto dest left right k n s).tblOff = s.tblOff := by rw [xorInto_frame]
@[simp] theorem xorInto_tblCnt (dest left right : RowRef) (k n : Nat) (s : State) :
    (xorInto dest left right k n s).tblCnt = s.tblCnt := by rw [xorInto_frame]

@[simp] theorem buildEffect_params (s : State) : (buildEffect s).params = s.params := by rw [buildEffect_frame]
@[simp] theorem buildEffect_x0 (s : State) : (buildEffect s).x0 = s.x0 := by rw [buildEffect_frame]
@[simp] theorem buildEffect_x1 (s : State) : (buildEffect s).x1 = s.x1 := by rw [buildEffect_frame]
@[simp] theorem buildEffect_x2 (s : State) : (buildEffect s).x2 = s.x2 := by rw [buildEffect_frame]
@[simp] theorem buildEffect_cfgM (s : State) : (buildEffect s).cfgM = s.cfgM := by rw [buildEffect_frame]
@[simp] theorem buildEffect_cfgWds (s : State) : (buildEffect s).cfgWds = s.cfgWds := by rw [buildEffect_frame]
@[simp] theorem buildEffect_M (s : State) : (buildEffect s).M = s.M := by rw [buildEffect_frame]
@[simp] theorem buildEffect_tblOff (s : State) : (buildEffect s).tblOff = s.x1 := by rw [buildEffect_frame]
@[simp] theorem buildEffect_tblCnt (s : State) : (buildEffect s).tblCnt = validTblCnt s.x2 := by
  rw [buildEffect_frame]

@[simp] theorem elimEffect_params (s : State) : (elimEffect s).params = s.params := by rw [elimEffect_frame]
@[simp] theorem elimEffect_x0 (s : State) : (elimEffect s).x0 = s.x0 := by rw [elimEffect_frame]
@[simp] theorem elimEffect_cfgWds (s : State) : (elimEffect s).cfgWds = s.cfgWds := by rw [elimEffect_frame]
@[simp] theorem elimEffect_Z (s : State) : (elimEffect s).Z = s.Z := by rw [elimEffect_frame]
@[simp] theorem elimEffect_zi (s : State) : (elimEffect s).zi = s.zi := by rw [elimEffect_frame]
@[simp] theorem elimEffect_tblOff (s : State) : (elimEffect s).tblOff = s.tblOff := by rw [elimEffect_frame]
@[simp] theorem elimEffect_tblCnt (s : State) : (elimEffect s).tblCnt = s.tblCnt := by rw [elimEffect_frame]

/-! ## What the effects leave -/

/-- `PASS` changes the memories and the tag at most (44_pass.md R147). -/
theorem passEffect_frame (s : State) :
    passEffect s = { s with M := (passEffect s).M, Z := (passEffect s).Z, zi := (passEffect s).zi,
                            tblOff := s.x1, tblCnt := validTblCnt s.x2 } := by
  have compose : ∀ t u : State,
      t = { s with Z := t.Z, zi := t.zi, tblOff := s.x1, tblCnt := validTblCnt s.x2 } → u = { t with M := u.M } →
        u = { s with M := u.M, Z := u.Z, zi := u.zi, tblOff := s.x1, tblCnt := validTblCnt s.x2 } := by
    intro t u hbuild helim
    rw [helim, hbuild]
  exact compose _ _ (buildEffect_frame s) (elimEffect_frame (buildEffect s))

/-- The effects of the commands change `x[0]`, the memories and the tag at most. -/
theorem effectOf_frame (i : Instr) (s : State) :
    effectOf i s = { s with x0 := (effectOf i s).x0, M := (effectOf i s).M, Z := (effectOf i s).Z,
                            zi := (effectOf i s).zi, tblOff := (effectOf i s).tblOff,
                            tblCnt := (effectOf i s).tblCnt } := by
  cases i with
  | extract => rfl
  | xorrow =>
    simp only [effectOf, xorrowEffect]
    rw [xorInto_frame]
  | build =>
    simp only [effectOf]
    rw [buildEffect_frame]
  | elim =>
    simp only [effectOf]
    rw [elimEffect_frame]
  | pass =>
    simp only [effectOf]
    rw [passEffect_frame]

@[simp] theorem effectOf_params (i : Instr) (s : State) : (effectOf i s).params = s.params := by rw [effectOf_frame]
@[simp] theorem effectOf_cfgM (i : Instr) (s : State) : (effectOf i s).cfgM = s.cfgM := by rw [effectOf_frame]
@[simp] theorem effectOf_cfgWds (i : Instr) (s : State) : (effectOf i s).cfgWds = s.cfgWds := by rw [effectOf_frame]
@[simp] theorem effectOf_status (i : Instr) (s : State) : (effectOf i s).status = s.status := by rw [effectOf_frame]

/-- No effect records a fault or clears one (60_exceptions.md R182). -/
@[simp] theorem effectOf_faulted (i : Instr) (s : State) : (effectOf i s).faulted = s.faulted := by
  rw [effectOf_frame]
  rfl

/-- Of the effects only that of `EXTRACT` writes `x[0]` (10_state.md R22). -/
theorem effectOf_x0 {i : Instr} (h : i ≠ .extract) (s : State) : (effectOf i s).x0 = s.x0 := by
  cases i with
  | extract => exact absurd rfl h
  | xorrow => simp [effectOf, xorrowEffect]
  | build => simp [effectOf]
  | elim => simp [effectOf]
  | pass => simp [effectOf, passEffect]

/-- Of the effects only those of `BUILD` and `PASS` write the membership array and the tag (10_state.md R34,
R40). -/
theorem effectOf_membership_tag {i : Instr} (hbuild : i ≠ .build) (hpass : i ≠ .pass) (s : State) :
    (effectOf i s).zi = s.zi ∧ (effectOf i s).tblOff = s.tblOff ∧ (effectOf i s).tblCnt = s.tblCnt := by
  cases i with
  | extract => exact ⟨rfl, rfl, rfl⟩
  | xorrow => simp [effectOf, xorrowEffect]
  | build => exact absurd rfl hbuild
  | elim => simp [effectOf]
  | pass => exact absurd rfl hpass

/-- `EXTRACT` and `BUILD` leave the matrix as data (10_state.md R38). -/
theorem effectOf_M {i : Instr} (h : i = .extract ∨ i = .build) (s : State) : (effectOf i s).M = s.M := by
  obtain rfl | rfl := h
  · rfl
  · exact buildEffect_M s

/-- `EXTRACT` and `ELIM` leave the table as data (10_state.md R39). -/
theorem effectOf_Z {i : Instr} (h : i = .extract ∨ i = .elim) (s : State) : (effectOf i s).Z = s.Z := by
  obtain rfl | rfl := h
  · rfl
  · exact elimEffect_Z s

/-! ## The causes that a command can raise -/

/-- The cause that decides is that of a check in the list. -/
theorem mem_of_firstCause_eq_some {l : List (Bool × Cause)} {cause : Cause} (h : firstCause l = some cause) :
    cause ∈ l.map Prod.snd := by
  induction l with
  | nil => cases h
  | cons p rest ih =>
    obtain ⟨ok, c⟩ := p
    rw [firstCause_cons] at h
    split at h
    · exact List.mem_cons_of_mem _ (ih h)
    · exact Option.some.inj h ▸ List.mem_cons_self

/-- A legal command does not raise `ILLEGAL_CMD` (60_exceptions.md R176). -/
theorem cause_ne_illegalCmd {i : Instr} {s : State} {cause : Cause}
    (h : firstCause (cfgCheck s :: checksOf i s) = some cause) : cause ≠ .illegalCmd := by
  rintro rfl
  have hmem := mem_of_firstCause_eq_some h
  cases i <;> simp [checksOf, extractChecks, xorrowChecks, windowChecks, elimChecks, cfgCheck] at hmem

/-- The status word of a cause in arithmetic: its code in bits 15:8 and `FAULT` in bit 0 (10_state.md R32). -/
theorem faultStatus_eq_ofNat (cause : Cause) : faultStatus cause = BitVec.ofNat 32 (256 * cause.code.toNat + 1) := by
  cases cause <;> rfl

/-- The codes of the causes run from 1 to 9 (60_exceptions.md R176). -/
theorem Cause.code_range (cause : Cause) : 1 ≤ cause.code.toNat ∧ cause.code.toNat ≤ 9 := by
  cases cause <;> decide

/-- The code 1 is that of `ILLEGAL_CMD` alone (60_exceptions.md R176). -/
theorem Cause.two_le_code {cause : Cause} (h : cause ≠ .illegalCmd) : 2 ≤ cause.code.toNat := by
  cases cause
  case illegalCmd => exact absurd rfl h
  all_goals decide

/-! ## The obligations -/

/-- Settles O31: of the three answers of a command only the exception ends in a fault, and it is the record of the
cause and of the word. -/
theorem faultingCommandHasNoOtherEffect : Obligations.FaultingCommandHasNoOtherEffect := by
  unfold Obligations.FaultingCommandHasNoOtherEffect
  intro i s t hs h ht
  obtain ⟨hdrop, -⟩ | ⟨-, cause, hcause, rfl⟩ | ⟨-, -, rfl⟩ := exec_cases h
  · exact absurd hdrop (Bool.eq_false_iff.1 hs)
  · exact ⟨cause.code.toNat, Cause.two_le_code (cause_ne_illegalCmd hcause), cause.code_range.2,
      by rw [State.raise, faultStatus_eq_ofNat]⟩
  · rw [effectOf_faulted] at ht
    exact absurd ht (Bool.eq_false_iff.1 hs)

/-- Settles O41: a dropped command changes nothing, an exception the record alone, and an effect stays within the
frame of its command and records no fault. -/
theorem commandsAnswerWithinTheirFrame : Obligations.CommandsAnswerWithinTheirFrame := by
  unfold Obligations.CommandsAnswerWithinTheirFrame
  intro i s
  obtain ⟨t, h⟩ := exists_exec_eq_next i s
  refine ⟨t, h, ?_⟩
  obtain ⟨-, rfl⟩ | ⟨hs, cause, -, rfl⟩ | ⟨hs, -, rfl⟩ := exec_cases h
  case inl => simp
  case inr.inl => simp [hs]
  case inr.inr =>
    have hframe := effectOf_frame i s
    have hfaulted : (effectOf i s).faulted = false := (effectOf_faulted i s).trans hs
    refine ⟨?_, ?_, ?_, ?_, ?_, ?_, ?_, ?_, ?_, fun hi => effectOf_x0 hi s,
      fun hb hp => effectOf_membership_tag hb hp s, fun hi => effectOf_M hi s, fun hi => effectOf_Z hi s,
      fun _ => ⟨?_, ?_⟩, fun ht => absurd ht (Bool.eq_false_iff.1 hfaulted)⟩
    all_goals rw [hframe]

end Sys2Proof.Machine
end

section
/-! PROOFS. The step on each host operation: the operations that do not exist, the writes of registers, the reset,
and the one way in which a step can reach the table and the membership array (45_host_access.md section 1). -/

namespace Sys2Proof.Machine

/-! ## A step and a write of a register -/

/-- ALL that a step can answer: with nothing pending the same state, else what the first host operation answers on the
state without it (45_host_access.md R165, 60_exceptions.md R189). -/
theorem step_cases {s t : State} (h : step s = .next t) :
    (s.pending = [] ∧ t = s) ∨
    ∃ op rest, s.pending = op :: rest ∧ performOp op { s with pending := rest } = .next t := by
  cases hp : s.pending with
  | nil => exact .inl ⟨rfl, (Host.Outcome.next.inj ((step_nil hp).symm.trans h)).symm⟩
  | cons op rest => exact .inr ⟨op, rest, rfl, (step_cons hp).symm.trans h⟩

/-- The offset 0x24 is the one of `CMD` (10_state.md R26). -/
theorem regAt_eq_cmd_iff {off : Nat} : regAt off = .cmd ↔ off = 0x24 := by
  constructor
  · intro h
    unfold regAt at h
    split at h
    case h_10 => rfl
    all_goals cases h
  · rintro rfl
    rfl

/-- ALL that a write of `CMD` can answer: the command that the word encodes, or an illegal word
(30_encoding.md R72, 45_host_access.md R158). -/
theorem writeCmd_cases {c : Word} {s t : State} (h : writeCmd c s = .next t) :
    (∃ i, c = encode i ∧ exec i s = .next t) ∨ t = if s.faulted then s else s.raise .illegalCmd c := by
  cases hd : decode c with
  | ok i => exact .inl ⟨i, decode_eq_ok_iff.1 hd, writeCmd_of_ok hd s ▸ h⟩
  | error e =>
    rw [writeCmd_of_error hd, illegalCommand_eq] at h
    exact .inr (Host.Outcome.next.inj h).symm

/-- ALL that a write of a register can answer: that of `CMD`, that of `STATUS`, a configuration register with the
tag no longer valid, or an operand register at most (45_host_access.md R157, R158, R166, R167). -/
theorem writeReg_cases {r : Reg} {v : Word} {s t : State} (h : writeReg r v s = .next t) :
    (r = .cmd ∧ writeCmd v s = .next t) ∨
    (r = .status ∧ t = if v.getLsbD 0 then s.clearFault else s) ∨
    (t = { s with cfgM := t.cfgM, cfgWds := t.cfgWds, tblCnt := clearedTblCnt s.tblCnt }) ∨
    (t = { s with x0 := t.x0, x1 := t.x1, x2 := t.x2, x3 := t.x3, x4 := t.x4 }) := by
  cases r
  case cmd => exact .inl ⟨rfl, h⟩
  case status => exact .inr (.inl ⟨rfl, (Host.Outcome.next.inj h).symm⟩)
  case cfgM | cfgWds =>
    obtain rfl := Host.Outcome.next.inj h
    exact .inr (.inr (.inl rfl))
  all_goals
    obtain rfl := Host.Outcome.next.inj h
    exact .inr (.inr (.inr rfl))

theorem exists_writeReg_eq_next (r : Reg) (v : Word) (s : State) : ∃ t, writeReg r v s = .next t := by
  cases r
  case cmd =>
    change ∃ t, writeCmd v s = .next t
    cases hd : decode v with
    | ok i => exact writeCmd_of_ok hd s ▸ exists_exec_eq_next i s
    | error e => exact writeCmd_of_error hd s ▸ ⟨_, illegalCommand_eq v s⟩
  all_goals exact ⟨_, rfl⟩

/-- An access to an offset outside the space `REG` (45_host_access.md R163). -/
theorem regOffsetExists_eq_false {off : Nat} (h : off % 4 ≠ 0 ∨ 0xFC < off) : regOffsetExists off = false := by
  rw [← Bool.not_eq_true, regOffsetExists_iff]
  omega

/-! ## The one way to the table -/

/-- A command other than `BUILD` and `PASS` leaves the membership array as data (10_state.md R40). -/
theorem exec_zi {i : Instr} (hbuild : i ≠ .build) (hpass : i ≠ .pass) {s t : State} (h : exec i s = .next t) :
    t.zi = s.zi := by
  obtain ⟨-, rfl⟩ | ⟨-, cause, -, rfl⟩ | ⟨-, -, rfl⟩ := exec_cases h
  · rfl
  · rfl
  · exact (effectOf_membership_tag hbuild hpass s).1

/-- `EXTRACT` and `ELIM` leave the table as data (10_state.md R39). -/
theorem exec_Z {i : Instr} (hi : i = .extract ∨ i = .elim) {s t : State} (h : exec i s = .next t) : t.Z = s.Z := by
  obtain ⟨-, rfl⟩ | ⟨-, cause, -, rfl⟩ | ⟨-, -, rfl⟩ := exec_cases h
  · rfl
  · rfl
  · exact effectOf_Z hi s

/-- A host operation reaches the table and the membership array only through a command or a reset
(45_host_access.md R162). -/
theorem performOp_keeps_table_or_commands_or_resets {op : HostOp} {s t : State} (h : performOp op s = .next t) :
    (t.zi = s.zi ∧ t.Z = s.Z) ∨ (∃ i, op = .regWrite 0x24 (encode i) ∧ exec i s = .next t) ∨
      ∃ c, op = .reset c := by
  obtain ⟨off, rfl, -, rfl⟩ | ⟨off, v, rfl, -, hwrite⟩ | ⟨space, idx, rfl, -, rfl⟩ |
    ⟨idx, v, rfl, -, -, rfl⟩ | ⟨c, rfl, -, -⟩ := performOp_cases h
  · exact .inl ⟨rfl, rfl⟩
  · obtain ⟨hreg, hcmd⟩ | ⟨-, rfl⟩ | ht | ht := writeReg_cases hwrite
    · obtain ⟨i, rfl, hexec⟩ | rfl := writeCmd_cases hcmd
      · exact .inr (.inl ⟨i, by rw [regAt_eq_cmd_iff.1 hreg], hexec⟩)
      · left
        split <;> exact ⟨rfl, rfl⟩
    · left
      split <;> exact ⟨rfl, rfl⟩
    · exact .inl ⟨by rw [ht], by rw [ht]⟩
    · exact .inl ⟨by rw [ht], by rw [ht]⟩
  · exact .inl ⟨rfl, rfl⟩
  · exact .inl ⟨rfl, rfl⟩
  · exact .inr (.inr ⟨c, rfl⟩)

/-! ## The obligations -/

/-- Settles O43: a step that changes either memory runs a command or resets, and a command that changes it is one
of those that may. -/
theorem tableWrittenOnlyByItsCommands : Obligations.TableWrittenOnlyByItsCommands := by
  unfold Obligations.TableWrittenOnlyByItsCommands
  intro s t hstep
  obtain ⟨-, rfl⟩ | ⟨op, rest, hp, hop⟩ := step_cases hstep
  · exact ⟨fun h => absurd rfl h, fun h => absurd rfl h⟩
  · obtain ⟨hzi, hZ⟩ | ⟨i, rfl, hexec⟩ | ⟨c, rfl⟩ := performOp_keeps_table_or_commands_or_resets hop
    · exact ⟨fun h => absurd hzi h, fun h => absurd hZ h⟩
    · refine ⟨fun h => ⟨_, rest, hp, ?_⟩, fun h => ⟨_, rest, hp, ?_⟩⟩
      · cases i
        case build => exact .inl rfl
        case pass => exact .inr (.inl rfl)
        all_goals exact absurd (exec_zi (by decide) (by decide) hexec) h
      · cases i
        case xorrow => exact .inl rfl
        case build => exact .inr (.inl rfl)
        case pass => exact .inr (.inr (.inl rfl))
        case extract => exact absurd (exec_Z (.inl rfl) hexec) h
        case elim => exact absurd (exec_Z (.inr rfl) hexec) h
    · exact ⟨fun _ => ⟨_, rest, hp, .inr (.inr ⟨c, rfl⟩)⟩,
        fun _ => ⟨_, rest, hp, .inr (.inr (.inr ⟨c, rfl⟩))⟩⟩

/-- Settles O2: both directions are the characterisation of the decoder by the encoder. -/
theorem decodeAndEncodeAgree : Obligations.DecodeAndEncodeAgree := by
  unfold Obligations.DecodeAndEncodeAgree
  exact ⟨fun _ _ => decode_eq_ok_iff.2 rfl, fun _ _ h => (decode_eq_ok_iff.1 h).symm⟩

/-- Settles O3: seven closed words. -/
theorem writtenOutWordsDecode : Obligations.WrittenOutWordsDecode := by
  unfold Obligations.WrittenOutWordsDecode
  decide

/-- Settles O5: the decoder hands the command to `exec`. -/
theorem stepRunsTheDecodedCommand : Obligations.StepRunsTheDecodedCommand := by
  unfold Obligations.StepRunsTheDecodedCommand
  intro s c i rest hp hd _
  rw [step_cons hp, performOp_cmd, writeCmd_of_ok hd]

/-- Settles O6: with nothing pending there is nothing to serve. -/
theorem idleBlockKeepsItsState : Obligations.IdleBlockKeepsItsState := by
  unfold Obligations.IdleBlockKeepsItsState
  exact fun _ hp => step_nil hp

/-- Settles O7: an answer comes with what makes the operation exist; an operation that exists passes its tests, and
a write of a register always answers. -/
theorem stepStopsOnlyOnNonexistentOperations : Obligations.StepStopsOnlyOnNonexistentOperations := by
  unfold Obligations.StepStopsOnlyOnNonexistentOperations
  intro s op rest hp
  rw [step_cons hp]
  constructor
  · rintro ⟨t, hop⟩
    obtain ⟨off, rfl, hoff, -⟩ | ⟨off, v, rfl, hoff, -⟩ | ⟨space, idx, rfl, hidx, -⟩ |
      ⟨idx, v, rfl, hidx, hv, -⟩ | ⟨c, rfl, hc, -⟩ := performOp_cases hop
    · exact hoff
    · exact hoff
    · exact decide_eq_true hidx
    · exact Bool.and_eq_true_iff.2 ⟨decide_eq_true hidx, decide_eq_true hv⟩
    · exact hc
  · intro hwf
    cases op with
    | regRead off => exact ⟨_, if_pos hwf⟩
    | regWrite off v =>
      obtain ⟨t, ht⟩ := exists_writeReg_eq_next (regAt off) v { s with pending := rest }
      exact ⟨t, (if_pos hwf).trans ht⟩
    | hostRead space idx => exact ⟨_, performOp_hostRead (of_decide_eq_true hwf)⟩
    | hostWrite space idx v =>
      simp only [HostOp.wellFormed, Bool.and_eq_true, decide_eq_true_eq] at hwf
      obtain ⟨⟨rfl, hidx⟩, hv⟩ := hwf
      exact ⟨_, performOp_hostWrite hidx hv⟩
    | reset c => exact ⟨_, if_pos hwf⟩

/-- Settles O8: one clause per test of `performOp`, each failing after those before it have passed. -/
theorem nonexistentOperationsStopByName : Obligations.NonexistentOperationsStopByName := by
  unfold Obligations.NonexistentOperationsStopByName
  intro s rest
  refine ⟨fun off hp hoff => ?read, fun off v hp hoff => ?write, fun sp idx hp hidx => ?location,
    fun sp idx v hp hsp => ?space, fun idx v hp hidx => ?index, fun idx v hp hidx hv => ?width⟩
  case read => rw [step_cons hp, performOp, if_neg (Bool.eq_false_iff.1 (regOffsetExists_eq_false hoff))]
  case write => rw [step_cons hp, performOp, if_neg (Bool.eq_false_iff.1 (regOffsetExists_eq_false hoff))]
  case location => rw [step_cons hp, performOp, if_neg (Nat.not_lt.2 hidx)]
  case space => rw [step_cons hp, performOp, if_pos hsp]
  case index =>
    have hsize : ¬ idx < Space.M.size s.params := Nat.not_lt.2 hidx
    rw [step_cons hp, performOp, if_neg (not_not.2 rfl), if_pos hsize]
  case width =>
    have hsize : idx < Space.M.size s.params := hidx
    rw [step_cons hp, performOp, if_neg (not_not.2 rfl), if_neg (not_not.2 hsize), if_pos (Nat.not_lt.2 hv)]

/-- Settles O29: the word is dropped on the state without the operation, which has the same `STATUS`. -/
theorem faultedBlockDropsCommands : Obligations.FaultedBlockDropsCommands := by
  unfold Obligations.FaultedBlockDropsCommands
  intro s c rest hf hp
  rw [step_cons hp, performOp_cmd]
  exact writeCmd_of_faulted (s := { s with pending := rest }) hf c

/-- Settles O34: one case per offset of the register map. -/
theorem operandAndReadOnlyRegisterWrites : Obligations.OperandAndReadOnlyRegisterWrites := by
  unfold Obligations.OperandAndReadOnlyRegisterWrites
  intro s off v rest hp h4 hmax hcfgM hcfgWds hstatus hcmd
  rw [step_regWrite hp h4 hmax]
  unfold regAt
  split
  case h_4 => exact absurd rfl hcfgM
  case h_5 => exact absurd rfl hcfgWds
  case h_6 => exact absurd rfl hstatus
  case h_10 => exact absurd rfl hcmd
  case h_16 => simp_all only [writeReg, imp_false, if_false]
  all_goals rfl

/-- Settles O38: contents that the memories can hold pass the one test of a reset. -/
theorem resetClearsEveryRegister : Obligations.ResetClearsEveryRegister := by
  unfold Obligations.ResetClearsEveryRegister
  intro s c rest hp hc
  rw [step_cons hp]
  exact if_pos hc

end Sys2Proof.Machine
end

section
/-! PROOFS. A recorded fault over a run: every host operation that does not clear it keeps the record, the table,
the membership array and the recorded window (60_exceptions.md R180). -/

namespace Sys2Proof.Machine

/-! ## What stays while a fault is recorded -/

/-- `t` has the fault record, the table, the membership array and the recorded window of `s`. -/
def State.KeepsRecord (s t : State) : Prop :=
  t.status = s.status ∧ t.fcmd = s.fcmd ∧ t.Z = s.Z ∧ t.zi = s.zi ∧ t.tblOff = s.tblOff

theorem State.KeepsRecord.refl (s : State) : s.KeepsRecord s := ⟨rfl, rfl, rfl, rfl, rfl⟩

theorem State.KeepsRecord.trans {s t u : State} (hst : s.KeepsRecord t) (htu : t.KeepsRecord u) :
    s.KeepsRecord u := by
  obtain ⟨h1, h2, h3, h4, h5⟩ := hst
  obtain ⟨g1, g2, g3, g4, g5⟩ := htu
  exact ⟨g1.trans h1, g2.trans h2, g3.trans h3, g4.trans h4, g5.trans h5⟩

theorem State.KeepsRecord.faulted {s t : State} (h : s.KeepsRecord t) : t.faulted = s.faulted := by
  obtain ⟨hstatus, -⟩ := h
  rw [State.faulted, hstatus, State.faulted]

/-- A host operation that does not clear the fault keeps the record, and leaves the host's list alone. -/
theorem performOp_keepsRecord {op : HostOp} {s t : State} (hf : s.faulted = true) (hop : clearsFault op = false)
    (h : performOp op s = .next t) : s.KeepsRecord t ∧ t.pending = s.pending := by
  obtain ⟨off, rfl, -, rfl⟩ | ⟨off, v, rfl, -, hwrite⟩ | ⟨space, idx, rfl, -, rfl⟩ |
    ⟨idx, v, rfl, -, -, rfl⟩ | ⟨c, rfl, -, -⟩ := performOp_cases h
  · exact ⟨State.KeepsRecord.refl s, rfl⟩
  · obtain ⟨-, hcmd⟩ | ⟨hreg, rfl⟩ | ht | ht := writeReg_cases hwrite
    · obtain rfl := Host.Outcome.next.inj ((writeCmd_of_faulted hf v).symm.trans hcmd)
      exact ⟨State.KeepsRecord.refl s, rfl⟩
    · have hv : ¬ v.getLsbD 0 = true := by
        simpa [clearsFault, regAt_eq_status_iff.1 hreg] using hop
      rw [if_neg hv]
      exact ⟨State.KeepsRecord.refl s, rfl⟩
    · rw [ht]
      exact ⟨State.KeepsRecord.refl s, rfl⟩
    · rw [ht]
      exact ⟨State.KeepsRecord.refl s, rfl⟩
  · exact ⟨State.KeepsRecord.refl s, rfl⟩
  · exact ⟨State.KeepsRecord.refl s, rfl⟩
  · cases hop

/-- A step with no clearing operation on the host's list keeps the record, and such an operation is not on the list
afterwards. -/
theorem step_keepsRecord {s t : State} (hf : s.faulted = true) (hops : ∀ op ∈ s.pending, clearsFault op = false)
    (h : step s = .next t) : s.KeepsRecord t ∧ ∀ op ∈ t.pending, clearsFault op = false := by
  obtain ⟨-, rfl⟩ | ⟨op, rest, hp, hop⟩ := step_cases h
  · exact ⟨State.KeepsRecord.refl t, hops⟩
  · rw [hp, List.forall_mem_cons] at hops
    obtain ⟨hkeeps, hrest⟩ := hops
    obtain ⟨hrecord, hpending⟩ := performOp_keepsRecord (s := { s with pending := rest }) hf hkeeps hop
    exact ⟨hrecord, hpending ▸ hrest⟩

/-! ## Runs -/

/-- A run of one step more begins with a step. -/
theorem run_succ_eq_next {C : Host.Core} {k : Nat} {s t : C.State} (h : C.run (k + 1) s = .next t) :
    ∃ u, C.step s = .next u ∧ C.run k u = .next t := by
  cases hs : C.step s with
  | next u => exact ⟨u, rfl, by simpa only [Host.Core.run, hs] using h⟩
  | fault r => simp [Host.Core.run, hs] at h
  | refused r => simp [Host.Core.run, hs] at h

/-! ## The obligation -/

/-- Settles O30, by induction on the number of steps. -/
theorem faultStaysUntilCleared : Obligations.FaultStaysUntilCleared := by
  unfold Obligations.FaultStaysUntilCleared
  intro k s t hf hops hrun
  change s.KeepsRecord t
  induction k generalizing s with
  | zero =>
    obtain rfl := Host.Outcome.next.inj hrun
    exact State.KeepsRecord.refl _
  | succ k ih =>
    obtain ⟨u, hstep, hrest⟩ := run_succ_eq_next hrun
    obtain ⟨hkeep, hops'⟩ := step_keepsRecord hf hops hstep
    exact hkeep.trans (ih u (hkeep.faulted.trans hf) hops' hrest)

end Sys2Proof.Machine
end

section
/-! PROOFS. The invariant of the block: every procedure of the commands keeps the canonical form of the memories,
every operation keeps `STATUS` and the table tag legal, and so does a reset (10_state.md sections 5, 7 and 9). -/

namespace Sys2Proof.Machine

/-! ## What the passed checks say -/

theorem canRun_of_firstCause_eq_none {s : State} {l : List (Bool × Cause)} (hf : s.faulted = false)
    (h : firstCause (cfgCheck s :: l) = none) : s.CanRun ∧ firstCause l = none := by
  rw [firstCause_cfgCheck] at h
  split at h
  case isTrue hcfg => exact ⟨⟨hf, (cfgCheck_fst s).1 hcfg⟩, h⟩
  case isFalse => cases h

/-- With the checks of `XORROW` passed it runs normally (41_xorinto.md R101). -/
theorem xorrowReady_of_firstCause_eq_none {s : State} (hf : s.faulted = false)
    (h : firstCause (cfgCheck s :: xorrowChecks s) = none) : s.XorrowReady := by
  obtain ⟨hrun, hown⟩ := canRun_of_firstCause_eq_none hf h
  rw [firstCause_xorrowChecks] at hown
  split_ifs at hown with hrefs hlength
  exact ⟨hrun, hrefs.1, hrefs.2.1, hrefs.2.2, hlength⟩

/-- With the checks of `BUILD` and `PASS` passed they run normally (42_buildtable.md R111). -/
theorem passReady_of_firstCause_eq_none {s : State} (hf : s.faulted = false)
    (h : firstCause (cfgCheck s :: windowChecks s) = none) : s.PassReady := by
  obtain ⟨hrun, hown⟩ := canRun_of_firstCause_eq_none hf h
  rw [firstCause_windowChecks] at hown
  split_ifs at hown with hcount hwindow hrows
  exact ⟨hrun, hcount, hwindow, hrows⟩

/-- With the checks of `ELIM` passed it runs normally (43_eliminate.md R131). -/
theorem elimReady_of_firstCause_eq_none {s : State} (hf : s.faulted = false)
    (h : firstCause (cfgCheck s :: elimChecks s) = none) : s.ElimReady := by
  have hpass : s.PassReady := by
    refine passReady_of_firstCause_eq_none hf ?_
    rw [elimChecks, ← List.cons_append, firstCause_append, Option.or_eq_none_iff] at h
    exact h.1
  rw [firstCause_elimChecks_of_passReady hpass] at h
  split_ifs at h with htag
  exact ⟨hpass, htag⟩

/-- The window of a pass is a field that exists, because `S_MAX` is at most `W` (00_scope.md R8). -/
theorem fieldOk_of_passReady {s : State} (hlegal : s.params.Legal) (h : s.PassReady) :
    s.FieldOk s.x1.toNat s.x2.toNat := by
  obtain ⟨-, ⟨-, hS⟩, -⟩ := hlegal
  obtain ⟨-, ⟨hlo, hhi⟩, hwindow, -⟩ := h
  exact ⟨hlo, hhi.trans (hS.trans (min_le_left _ _)), hwindow⟩

/-! ## The canonical form of the memories -/

/-- A word of a row inside a memory of `n` words per row is inside the memory (20_memory.md R52, R53). -/
theorem rowIndex_lt {rows n r w : Nat} (hr : r < rows) (hw : w < n) : r * n + w < rows * n :=
  calc r * n + w < r * n + n := Nat.add_lt_add_left hw _
    _ = (r + 1) * n := (Nat.succ_mul r n).symm
    _ ≤ rows * n := Nat.mul_le_mul_right n hr

/-- The row is one of the memory it names. -/
def State.RowExists (s : State) (ref : RowRef) : Prop :=
  ref.idx < if ref.table then 2 ^ s.params.sMax else s.params.mMax

/-- A valid reference names a row of its memory when the configuration is within capacity (30_encoding.md R77). -/
theorem State.rowExists_of_namesRow {s : State} {v : Word} (hrun : s.CanRun) (h : s.NamesRow v) :
    s.RowExists (rowRef v) := by
  obtain ⟨-, hm, -⟩ := hrun
  have hvalid := (s.refValid_iff v).2 h
  rw [State.refValid, Bool.and_eq_true, decide_eq_true_eq, decide_eq_true_eq] at hvalid
  obtain ⟨-, hidx⟩ := hvalid
  unfold State.RowExists
  split at hidx
  · next htable => rwa [if_pos htable]
  · next htable =>
    rw [if_neg htable]
    omega

/-- A word of a row of canonical memories has the word width. -/
theorem State.readRow_lt {s : State} (h : s.MemoriesWf) (ref : RowRef) (w : Nat) :
    (s.readRow ref w).toNat < 2 ^ s.params.W := by
  obtain ⟨hM, hZ, -⟩ := h
  unfold State.readRow
  split
  · exact Memory.read_lt_of_wf hZ _
  · exact Memory.read_lt_of_wf hM _

theorem State.MemoriesWf.writeRow {s : State} (h : s.MemoriesWf) {ref : RowRef} {w : Nat} {v : Word}
    (href : s.RowExists ref) (hw : w < s.params.wdsMax) (hv : v.toNat < 2 ^ s.params.W) :
    (s.writeRow ref w v).MemoriesWf := by
  obtain ⟨hM, hZ, hzi⟩ := h
  unfold State.RowExists at href
  unfold State.writeRow
  split
  · next htable =>
    rw [if_pos htable] at href
    exact ⟨hM, Memory.wf_write hZ (rowIndex_lt href hw) hv, hzi⟩
  · next htable =>
    rw [if_neg htable] at href
    exact ⟨Memory.wf_write hM (rowIndex_lt href hw) hv, hZ, hzi⟩

theorem State.MemoriesWf.writeZI {s : State} (h : s.MemoriesWf) {j : Nat} {v : Word} (hj : j < 2 ^ s.params.sMax)
    (hv : v.toNat < 2 ^ s.params.sMax) : (s.writeZI j v).MemoriesWf := by
  obtain ⟨hM, hZ, hzi⟩ := h
  exact ⟨hM, hZ, Memory.wf_write hzi hj hv⟩

/-- `xorInto` keeps the canonical form: the XOR of two words is no wider than they are (41_xorinto.md R102). -/
theorem State.MemoriesWf.xorInto {s : State} (h : s.MemoriesWf) {dest : RowRef} (left right : RowRef) (k : Nat)
    {n : Nat} (hdest : s.RowExists dest) (hn : n ≤ s.params.wdsMax) :
    (xorInto dest left right k n s).MemoriesWf := by
  have key : (Machine.xorInto dest left right k n s).params = s.params ∧
      (Machine.xorInto dest left right k n s).MemoriesWf := by
    refine forRange_keeps (P := fun t : State => t.params = s.params ∧ t.MemoriesWf) ⟨rfl, h⟩
      fun w t _ hw ⟨hp, ht⟩ => ⟨by rw [State.writeRow_params, hp], ht.writeRow ?_ ?_ ?_⟩
    · unfold State.RowExists
      rw [hp]
      exact hdest
    · rw [hp]
      omega
    · rw [BitVec.toNat_xor]
      exact Nat.xor_lt_two_pow (t.readRow_lt ht left w) (t.readRow_lt ht right w)
  exact key.2

/-! ## The phases of `BUILD` and `ELIM` -/

/-- The slots that the pivot rows below `n` fill are below `2^n` (42_buildtable.md R113). -/
theorem two_pow_add_lt {i j n : Nat} (hi : i < n) (hj : j < 2 ^ i) : 2 ^ i + j < 2 ^ n :=
  calc 2 ^ i + j < 2 ^ i + 2 ^ i := Nat.add_lt_add_left hj _
    _ = 2 ^ (i + 1) := (Nat.two_pow_succ i).symm
    _ ≤ 2 ^ n := Nat.pow_le_pow_right (by decide) hi

@[simp] theorem buildSlot_params (r vv ii k0 j : Nat) (s : State) :
    (buildSlot r vv ii k0 j s).params = s.params := by rw [buildSlot_frame]
@[simp] theorem buildSlot_cfgWds (r vv ii k0 j : Nat) (s : State) :
    (buildSlot r vv ii k0 j s).cfgWds = s.cfgWds := by rw [buildSlot_frame]
@[simp] theorem elimRow_params (s0 S k0 i : Nat) (s : State) : (elimRow s0 S k0 i s).params = s.params := by
  rw [elimRow_frame]
@[simp] theorem elimRow_cfgWds (s0 S k0 i : Nat) (s : State) : (elimRow s0 S k0 i s).cfgWds = s.cfgWds := by
  rw [elimRow_frame]

/-- What the loops of a pass carry along: the parameters, the words in use and the canonical form. -/
def State.SameShapeWf (s t : State) : Prop :=
  t.params = s.params ∧ t.cfgWds = s.cfgWds ∧ t.MemoriesWf

theorem zeroFill_sameShapeWf {s : State} {S : Nat} (k0 : Nat) (h : s.MemoriesWf) (hS : S ≤ s.params.sMax)
    (hwds : s.cfgWds.toNat ≤ s.params.wdsMax) : s.SameShapeWf (zeroFill S k0 s) := by
  unfold zeroFill
  refine forRange_keeps (P := s.SameShapeWf) ⟨rfl, rfl, h⟩ fun e t _ he ht => ?_
  refine forRange_keeps (P := s.SameShapeWf) ht fun w u _ hw ⟨hp, hcfg, hu⟩ => ?_
  have hrow : u.RowExists (tableRow e) := by
    change e < 2 ^ u.params.sMax
    exact hp ▸ he.trans_le (Nat.pow_le_pow_right (by decide) hS)
  have hword : w < u.params.wdsMax := hp ▸ hw.trans_le hwds
  exact ⟨hp, hcfg, hu.writeRow (ref := tableRow e) (v := 0) hrow hword (Nat.two_pow_pos _)⟩

/-- One turn of the inner loop of `BUILD`: the new entry is the XOR of two values of the array's width
(42_buildtable.md R113). -/
theorem State.MemoriesWf.buildSlot {s : State} (h : s.MemoriesWf) {r vv ii k0 j : Nat}
    (hvv : vv < 2 ^ s.params.sMax) (hj : j + ii < 2 ^ s.params.sMax) (hwds : s.cfgWds.toNat ≤ s.params.wdsMax) :
    (buildSlot r vv ii k0 j s).MemoriesWf := by
  have ⟨_, _, hzi⟩ := h
  have hb : (s.readZI j).toNat ^^^ vv < 2 ^ s.params.sMax :=
    Nat.xor_lt_two_pow (Memory.read_lt_of_wf hzi j) hvv
  have hword : (BitVec.ofNat 32 ((s.readZI j).toNat ^^^ vv)).toNat < 2 ^ s.params.sMax := by
    rw [BitVec.toNat_ofNat]
    exact (Nat.mod_le _ _).trans_lt hb
  exact (h.writeZI hj hword).xorInto _ _ k0 (dest := tableRow ((s.readZI j).toNat ^^^ vv)) hb hwds

theorem buildPivot_sameShapeWf {s : State} {s0 S i : Nat} (k0 : Nat) (h : s.MemoriesWf) (hi : i < S)
    (hS : S ≤ s.params.sMax) (hfield : s.FieldOk s0 S) (hwds : s.cfgWds.toNat ≤ s.params.wdsMax) :
    s.SameShapeWf (buildPivot s0 S k0 i s) := by
  unfold buildPivot
  refine forRange_keeps (P := s.SameShapeWf) ⟨rfl, rfl, h⟩ fun j t _ hj ⟨hp, hcfg, ht⟩ =>
    ⟨by rw [buildSlot_params, hp], by rw [buildSlot_cfgWds, hcfg], ht.buildSlot ?field ?slot ?words⟩
  case field =>
    rw [hp]
    exact (State.extract_lt hfield).trans_le (Nat.pow_le_pow_right (by decide) hS)
  case slot =>
    rw [hp, Nat.add_comm]
    exact two_pow_add_lt (hi.trans_le hS) hj
  case words => rwa [hp, hcfg]

/-- `BUILD` keeps the canonical form (42_buildtable.md R113). -/
theorem State.MemoriesWf.buildEffect {s : State} (h : s.MemoriesWf) (hlegal : s.params.Legal)
    (hready : s.PassReady) : (buildEffect s).MemoriesWf := by
  have hfield := fieldOk_of_passReady hlegal hready
  obtain ⟨⟨-, -, hwds⟩, ⟨-, hS⟩, -⟩ := hready
  have hstart : s.SameShapeWf ((zeroFill s.x2.toNat (skipBoundary s.params s.x1.toNat) s).writeZI 0 0) := by
    obtain ⟨hp, hcfg, hz⟩ := zeroFill_sameShapeWf (skipBoundary s.params s.x1.toNat) h hS hwds
    exact ⟨hp, hcfg, hz.writeZI (Nat.two_pow_pos _) (Nat.two_pow_pos _)⟩
  have key : s.SameShapeWf (forRange 0 s.x2.toNat
      (buildPivot s.x1.toNat s.x2.toNat (skipBoundary s.params s.x1.toNat))
      ((zeroFill s.x2.toNat (skipBoundary s.params s.x1.toNat) s).writeZI 0 0)) := by
    refine forRange_keeps (P := s.SameShapeWf) hstart fun i t _ hi ⟨hp, hcfg, ht⟩ => ?_
    have hfield' : t.FieldOk s.x1.toNat s.x2.toNat := by
      unfold State.FieldOk
      rw [hp, hcfg]
      exact hfield
    obtain ⟨hp', hcfg', ht'⟩ := buildPivot_sameShapeWf (skipBoundary s.params s.x1.toNat) ht hi
      (hp ▸ hS) hfield' (by rw [hp, hcfg]; exact hwds)
    exact ⟨hp'.trans hp, hcfg'.trans hcfg, ht'⟩
  obtain ⟨-, -, hwf⟩ := key
  exact hwf

/-- `ELIM` keeps the canonical form (43_eliminate.md R132). -/
theorem State.MemoriesWf.elimEffect {s : State} (h : s.MemoriesWf) (hrun : s.CanRun) :
    (elimEffect s).MemoriesWf := by
  obtain ⟨-, hm, hwds⟩ := hrun
  have key : s.SameShapeWf (Machine.elimEffect s) := by
    refine forRange_keeps (P := s.SameShapeWf) ⟨rfl, rfl, h⟩ fun i t _ hi ⟨hp, hcfg, ht⟩ =>
      ⟨by rw [elimRow_params, hp], by rw [elimRow_cfgWds, hcfg], ht.xorInto _ _ _ (dest := matrixRow i) ?_ ?_⟩
    · change i < t.params.mMax
      rw [hp]
      exact hi.trans_le hm
    · rw [State.wds, hp, hcfg]
      exact hwds
  obtain ⟨-, -, hwf⟩ := key
  exact hwf

@[simp] theorem buildEffect_faulted (s : State) : (buildEffect s).faulted = s.faulted := by
  rw [buildEffect_frame]
  rfl

/-- The operands of a pass are as much in order after the build phase as before (44_pass.md R147). -/
theorem passReady_buildEffect {s : State} (h : s.PassReady) : (buildEffect s).PassReady := by
  unfold State.PassReady State.CanRun at *
  simpa using h

/-- `PASS` keeps the canonical form (44_pass.md R147). -/
theorem State.MemoriesWf.passEffect {s : State} (h : s.MemoriesWf) (hlegal : s.params.Legal)
    (hready : s.PassReady) : (passEffect s).MemoriesWf := by
  obtain ⟨hrun, -⟩ := passReady_buildEffect hready
  exact (h.buildEffect hlegal hready).elimEffect hrun

/-- The effects of the commands keep the canonical form. -/
theorem effectOf_memoriesWf {i : Instr} {s : State} (hlegal : s.params.Legal) (h : s.MemoriesWf)
    (hf : s.faulted = false) (hc : firstCause (cfgCheck s :: checksOf i s) = none) :
    (effectOf i s).MemoriesWf := by
  cases i with
  | extract => exact h
  | xorrow =>
    obtain ⟨hrun, hdest, -, -, hlength⟩ := xorrowReady_of_firstCause_eq_none hf hc
    have ⟨_, _, hwds⟩ := hrun
    exact h.xorInto _ _ _ (State.rowExists_of_namesRow hrun hdest) (hlength ▸ hwds)
  | build => exact h.buildEffect hlegal (passReady_of_firstCause_eq_none hf hc)
  | elim =>
    obtain ⟨⟨hrun, -⟩, -⟩ := elimReady_of_firstCause_eq_none hf hc
    exact h.elimEffect hrun
  | pass => exact h.passEffect hlegal (passReady_of_firstCause_eq_none hf hc)

/-! ## `STATUS` -/

/-- Legality of `STATUS` is a matter of that register alone. -/
theorem State.StatusLegal.congr {s t : State} (h : s.StatusLegal) (hst : t.status = s.status) : t.StatusLegal := by
  unfold State.StatusLegal State.faulted State.causeField
  rw [hst]
  exact h

theorem State.raise_statusLegal (s : State) (cause : Cause) (word : Word) : (s.raise cause word).StatusLegal := by
  unfold State.StatusLegal State.faulted State.causeField
  rw [State.raise_status]
  cases cause <;> decide

theorem State.statusLegal_of_zero {s : State} (h : s.status = 0) : s.StatusLegal := by
  unfold State.StatusLegal State.faulted State.causeField
  rw [h]
  decide

/-! ## The table tag -/

/-- The tag word that `BUILD` writes, in arithmetic (10_state.md R35). -/
theorem validTblCnt_toNat (S : Word) : (validTblCnt S).toNat = 2 ^ 31 + S.toNat % 256 := by
  have hmask : S.toNat &&& 255 = S.toNat % 256 := Nat.and_two_pow_sub_one_eq_mod S.toNat 8
  have hlt : S.toNat % 256 < 2 ^ 31 := by omega
  have hor : 2 ^ 31 * 1 + S.toNat % 256 = 2 ^ 31 * 1 ||| S.toNat % 256 := Nat.two_pow_add_eq_or_of_lt hlt 1
  rw [Nat.mul_one] at hor
  rw [hor, ← hmask]
  rfl

theorem validTblCnt_reserved (S : Word) : validTblCnt S &&& 0x7FFFFF00 = 0 := by
  rw [validTblCnt, BitVec.and_comm, BitVec.and_or_distrib_left, ← BitVec.and_assoc, BitVec.and_comm _ S,
    BitVec.and_assoc]
  simp

/-- The valid bit is bit 31 (10_state.md R35). -/
theorem validTblCnt_valid (S : Word) : (validTblCnt S).getLsbD 31 = true := by
  rw [← Bool.not_eq_false, getLsbD_31_eq_false, validTblCnt_toNat]
  omega

/-- A pivot count below 256 is kept whole in bits 7:0 (10_state.md R35). -/
theorem validTblCnt_count {S : Word} (h : S.toNat < 256) :
    ((validTblCnt S).extractLsb' 0 8).toNat = S.toNat := by
  rw [BitVec.extractLsb'_toNat, validTblCnt_toNat]
  simp only [Nat.shiftRight_zero]
  omega

/-- The pivot count of a pass fits its field of the tag, because `S_MAX` is at most 16 (00_scope.md R8). -/
theorem pivotCount_le_sixteen {s : State} (hlegal : s.params.Legal) (h : s.PassReady) : s.x2.toNat ≤ 16 := by
  obtain ⟨-, ⟨-, hS⟩, -⟩ := hlegal
  obtain ⟨-, ⟨-, hcount⟩, -⟩ := h
  exact hcount.trans (hS.trans (min_le_right _ _))

/-- The tag that the build phase leaves is legal (42_buildtable.md R116). -/
theorem tagLegal_of_built {s t : State} (hlegal : s.params.Legal) (h : s.PassReady) (hp : t.params = s.params)
    (hm : t.cfgM = s.cfgM) (hwds : t.cfgWds = s.cfgWds) (hoff : t.tblOff = s.x1)
    (hcnt : t.tblCnt = validTblCnt s.x2) : t.TagLegal := by
  have hS := pivotCount_le_sixteen hlegal h
  obtain ⟨⟨-, hcfg⟩, hcount, hwindow, hrows⟩ := h
  have htblCount : t.tblCount = s.x2.toNat := by
    rw [State.tblCount, hcnt, validTblCnt_count (by omega)]
  unfold State.TagLegal
  rw [hcnt, htblCount, hp, hm, hwds, hoff]
  exact ⟨validTblCnt_reserved s.x2, fun _ => ⟨hcount, hcfg, hwindow, hrows⟩⟩

/-- Legality of the tag is a matter of the tag, the configuration and the parameters. -/
theorem State.TagLegal.congr {s t : State} (h : s.TagLegal) (hp : t.params = s.params) (hm : t.cfgM = s.cfgM)
    (hwds : t.cfgWds = s.cfgWds) (hoff : t.tblOff = s.tblOff) (hcnt : t.tblCnt = s.tblCnt) : t.TagLegal := by
  unfold State.TagLegal State.tblValid State.tblCount
  rw [hcnt, hp, hm, hwds, hoff]
  exact h

/-- A tag that is not valid is legal when its reserved bits are 0. -/
theorem State.tagLegal_of_cleared {s : State} {c : Word} (hc : c &&& 0x7FFFFF00 = 0)
    (hs : s.tblCnt = clearedTblCnt c) : s.TagLegal := by
  unfold State.TagLegal State.tblValid
  rw [hs, getLsbD_clearedTblCnt_valid]
  refine ⟨?_, nofun⟩
  rw [clearedTblCnt, BitVec.and_assoc]
  exact hc

/-! ## Every operation -/

/-- Of the effects only those of `BUILD` and `PASS` write the tag, and theirs is legal. -/
theorem effectOf_tagLegal {i : Instr} {s : State} (hlegal : s.params.Legal) (h : s.TagLegal)
    (hf : s.faulted = false) (hc : firstCause (cfgCheck s :: checksOf i s) = none) : (effectOf i s).TagLegal := by
  have built : s.PassReady → (effectOf i s).tblOff = s.x1 → (effectOf i s).tblCnt = validTblCnt s.x2 →
      (effectOf i s).TagLegal := fun hready =>
    tagLegal_of_built hlegal hready (effectOf_params i s) (effectOf_cfgM i s) (effectOf_cfgWds i s)
  have kept : i ≠ .build → i ≠ .pass → (effectOf i s).TagLegal := by
    intro hbuild hpass
    obtain ⟨-, hoff, hcnt⟩ := effectOf_membership_tag hbuild hpass s
    exact h.congr (effectOf_params i s) (effectOf_cfgM i s) (effectOf_cfgWds i s) hoff hcnt
  cases i with
  | extract => exact kept (by decide) (by decide)
  | xorrow => exact kept (by decide) (by decide)
  | build =>
    exact built (passReady_of_firstCause_eq_none hf hc) (buildEffect_tblOff s) (buildEffect_tblCnt s)
  | elim => exact kept (by decide) (by decide)
  | pass =>
    exact built (passReady_of_firstCause_eq_none hf hc) (by simp [effectOf, passEffect])
      (by simp [effectOf, passEffect])

/-- Every command keeps the invariant. -/
theorem State.Invariant.exec {i : Instr} {s t : State} (h : s.Invariant) (hexec : exec i s = .next t) :
    t.Invariant ∧ t.params = s.params := by
  have ⟨hlegal, hwf, hstatus, htag⟩ := h
  obtain ⟨-, rfl⟩ | ⟨-, cause, -, rfl⟩ | ⟨hf, hc, rfl⟩ := exec_cases hexec
  · exact ⟨h, rfl⟩
  · exact ⟨⟨hlegal, hwf, s.raise_statusLegal cause _, htag⟩, rfl⟩
  · have hp := effectOf_params i s
    exact ⟨⟨hp.symm ▸ hlegal, effectOf_memoriesWf hlegal hwf hf hc, hstatus.congr (effectOf_status i s),
      effectOf_tagLegal hlegal htag hf hc⟩, hp⟩

/-- Every write of a register keeps the invariant. -/
theorem State.Invariant.writeReg {r : Reg} {v : Word} {s t : State} (h : s.Invariant)
    (hwrite : writeReg r v s = .next t) : t.Invariant ∧ t.params = s.params := by
  have ⟨hlegal, hwf, hstatus, htag⟩ := h
  obtain ⟨-, hcmd⟩ | ⟨-, rfl⟩ | ht | ht := writeReg_cases hwrite
  · obtain ⟨i, -, hexec⟩ | rfl := writeCmd_cases hcmd
    · exact h.exec hexec
    · split
      · exact ⟨h, rfl⟩
      · exact ⟨⟨hlegal, hwf, s.raise_statusLegal _ _, htag⟩, rfl⟩
  · split
    · exact ⟨⟨hlegal, hwf, State.statusLegal_of_zero rfl, htag⟩, rfl⟩
    · exact ⟨h, rfl⟩
  · rw [ht]
    exact ⟨⟨hlegal, hwf, hstatus, State.tagLegal_of_cleared htag.1 rfl⟩, rfl⟩
  · rw [ht]
    exact ⟨h, rfl⟩

/-- The invariant holds right after a reset with contents that the memories can hold (10_state.md R43). -/
theorem resetWith_invariant {p : Params} {c : Contents} (hp : p.Legal) (hc : c.wf p = true) :
    (State.resetWith p c).Invariant := by
  rw [Contents.wf, Bool.and_eq_true, Bool.and_eq_true, and_assoc] at hc
  exact ⟨hp, hc, State.statusLegal_of_zero rfl, State.tagLegal_of_cleared (c := 0) (by decide) rfl⟩

/-- Every host operation keeps the invariant. -/
theorem State.Invariant.performOp {op : HostOp} {s t : State} (h : s.Invariant)
    (hop : performOp op s = .next t) : t.Invariant ∧ t.params = s.params := by
  have ⟨hlegal, ⟨hM, hZ, hzi⟩, hstatus, htag⟩ := h
  obtain ⟨off, rfl, -, rfl⟩ | ⟨off, v, rfl, -, hwrite⟩ | ⟨space, idx, rfl, -, rfl⟩ |
    ⟨idx, v, rfl, hidx, hv, rfl⟩ | ⟨c, rfl, hc, rfl⟩ := performOp_cases hop
  · exact ⟨h, rfl⟩
  · exact h.writeReg hwrite
  · exact ⟨h, rfl⟩
  · exact ⟨⟨hlegal, ⟨Memory.wf_write hM hidx hv, hZ, hzi⟩, hstatus, htag⟩, rfl⟩
  · exact ⟨resetWith_invariant hlegal hc, rfl⟩

/-! ## The obligations -/

/-- Settles O39: a step is one host operation, on a state that differs in the host's list only. -/
theorem stepKeepsTheInvariant : Obligations.StepKeepsTheInvariant := by
  unfold Obligations.StepKeepsTheInvariant
  intro s t h hstep
  obtain ⟨-, rfl⟩ | ⟨op, rest, -, hop⟩ := step_cases hstep
  · exact ⟨h, rfl⟩
  · have hrest : State.Invariant { s with pending := rest } := h
    exact hrest.performOp hop

/-- Settles O40: `State.reset` is the reset of the reference configuration with empty contents. -/
theorem invariantHoldsAfterReset : Obligations.InvariantHoldsAfterReset := by
  unfold Obligations.InvariantHoldsAfterReset
  exact ⟨fun _ _ => resetWith_invariant, resetWith_invariant (by decide) rfl⟩

end Sys2Proof.Machine
end

section
/-! PROOFS. The bits of a field: `extract` returns the row's own bits, so it is linear in the row (40_extract.md R92,
R93), and the XOR over a subset of rows has the fields that the subset's fields XOR to (42_buildtable.md
section 2). -/

namespace Sys2Proof.Machine

/-! ## The bits of the formula -/

/-- Numbers of `n` bits with equal bits below `n` are equal. -/
theorem eq_of_testBit_eq_below {n x y : Nat} (hx : x < 2 ^ n) (hy : y < 2 ^ n)
    (h : ∀ k, k < n → x.testBit k = y.testBit k) : x = y := by
  refine Nat.eq_of_testBit_eq fun k => ?_
  rcases Nat.lt_or_ge k n with hk | hk
  · exact h k hk
  · have hpow : 2 ^ n ≤ 2 ^ k := Nat.pow_le_pow_right (by decide) hk
    rw [Nat.testBit_lt_two_pow (hx.trans_le hpow), Nat.testBit_lt_two_pow (hy.trans_le hpow)]

/-- The word and the bit of a column inside the word of `offset`, or in the one after it (20_memory.md R55). -/
theorem column_div_mod {W offset k : Nat} (hk : k < W) :
    (offset % W + k < W ∧ (offset + k) / W = offset / W ∧ (offset + k) % W = offset % W + k) ∨
    (W ≤ offset % W + k ∧ (offset + k) / W = offset / W + 1 ∧ (offset + k) % W = offset % W + k - W) := by
  have hW : 0 < W := by omega
  have hoff : W * (offset / W) + offset % W = offset := Nat.div_add_mod offset W
  have hb : offset % W < W := Nat.mod_lt offset hW
  rcases Nat.lt_or_ge (offset % W + k) W with h | h
  · exact .inl ⟨h, (Nat.div_mod_unique hW).2 ⟨by omega, h⟩⟩
  · refine .inr ⟨h, (Nat.div_mod_unique hW).2 ⟨?_, by omega⟩⟩
    rw [Nat.mul_add, Nat.mul_one]
    omega

/-- Bit `k` of the formula is the row's column `offset + k`: below the end of the first word it is shifted down from
there, beyond it shifted up from the second, and the two parts do not overlap (40_extract.md R92). -/
theorem testBit_fieldFormula {W offset length k : Nat} {row : Nat → Nat} (hlW : length ≤ W)
    (hrow : ∀ w, row w < 2 ^ W) (hk : k < length) :
    (fieldFormula W row offset length).testBit k = (row ((offset + k) / W)).testBit ((offset + k) % W) := by
  have hW : 0 < W := by omega
  have hb : offset % W < W := Nat.mod_lt offset hW
  have hlast : (offset + k) / W ≤ (offset + length - 1) / W := Nat.div_le_div_right (by omega)
  simp only [fieldFormula, Nat.testBit_and, Nat.testBit_two_pow_sub_one, decide_eq_true hk, Bool.and_true]
  obtain ⟨hin, hword, hbit⟩ | ⟨hout, hword, hbit⟩ := column_div_mod (offset := offset) (hk.trans_le hlW)
  · rw [hword, hbit]
    have hhigh : (row ((offset + length - 1) / W) <<< (W - offset % W)).testBit k = false := by
      rw [Nat.testBit_shiftLeft, decide_eq_false (by omega), Bool.false_and]
    split
    · rw [Nat.testBit_or, Nat.testBit_shiftRight, hhigh, Bool.or_false]
    · rw [Nat.testBit_shiftRight]
  · have hnext : (offset + length - 1) / W = offset / W + 1 := by
      obtain ⟨-, hle, -⟩ | ⟨-, hle, -⟩ := column_div_mod (W := W) (offset := offset) (k := length - 1) (by omega)
      · rw [← Nat.add_sub_assoc (by omega)] at hle
        omega
      · rwa [← Nat.add_sub_assoc (by omega)] at hle
    have hlow : (row (offset / W) >>> (offset % W)).testBit k = false := by
      rw [Nat.testBit_shiftRight]
      exact Nat.testBit_lt_two_pow ((hrow _).trans_le (Nat.pow_le_pow_right (by decide) hout))
    rw [hword, hbit, hnext, if_pos (Nat.lt_succ_self _), Nat.testBit_or, hlow, Bool.false_or,
      Nat.testBit_shiftLeft, decide_eq_true (by omega), Bool.true_and]
    congr 1
    omega

/-! ## The bits of `extract` -/

/-- A column of a field lies in a word from the word of `offset` on, below `wds` (40_extract.md R95). -/
theorem State.FieldOk.word_range {s : State} {offset length k : Nat} (h : s.FieldOk offset length)
    (hk : k < length) :
    offset / s.params.W ≤ (offset + k) / s.params.W ∧ (offset + k) / s.params.W < s.cfgWds.toNat := by
  obtain ⟨-, hlW, hend⟩ := h
  exact ⟨Nat.div_le_div_right (Nat.le_add_right _ _), (Nat.div_lt_iff_lt_mul (by omega)).2 (by omega)⟩

/-- Bit `k` of a field is the row's column `offset + k` (40_extract.md R93). -/
theorem State.testBit_extract {s : State} (hwf : s.MemoriesWf) (ref : RowRef) {offset length k : Nat}
    (h : s.FieldOk offset length) (hk : k < length) :
    (s.extract ref offset length).testBit k =
      (s.readRow ref ((offset + k) / s.params.W)).toNat.testBit ((offset + k) % s.params.W) := by
  have ⟨_, hlW, _⟩ := h
  rw [State.extract_eq_formula h]
  exact testBit_fieldFormula (row := fun w => (s.readRow ref w).toNat) hlW (s.readRow_lt hwf ref) hk

/-- A column is one bit of its word (20_memory.md R55). -/
theorem State.column_eq_testBit (s : State) (ref : RowRef) (i : Nat) :
    s.column ref i = ((s.readRow ref (i / s.params.W)).toNat.testBit (i % s.params.W)).toNat := by
  rw [State.column, Nat.toNat_testBit]

/-- A column inside a field is the field's bit. -/
theorem State.column_eq_testBit_extract {s : State} (hwf : s.MemoriesWf) (ref : RowRef) {offset length k : Nat}
    (h : s.FieldOk offset length) (hk : k < length) :
    s.column ref (offset + k) = ((s.extract ref offset length).testBit k).toNat := by
  rw [State.column_eq_testBit, State.testBit_extract hwf ref h hk]

/-- The low `n` bits of a number are the sum of their weights. -/
theorem sum_testBit_eq_mod (x n : Nat) :
    ∑ k ∈ Finset.range n, (x.testBit k).toNat * 2 ^ k = x % 2 ^ n := by
  induction n with
  | zero => simp [Nat.mod_one]
  | succ n ih => rw [Finset.sum_range_succ, ih, Nat.mod_pow_succ, Nat.toNat_testBit, Nat.mul_comm (2 ^ n)]

/-! ## Fields of XORs of rows -/

/-- The field of the XOR of two rows is the XOR of their fields; the XOR has to hold in the words from the word of
`offset` on only (40_extract.md R95). -/
theorem State.extract_xor {s t : State} (hs : s.MemoriesWf) (ht : t.MemoriesWf) (hp : t.params = s.params)
    (hcfg : t.cfgWds = s.cfgWds) {ref left right : RowRef} {offset length : Nat} (h : s.FieldOk offset length)
    (hrow : ∀ w, offset / s.params.W ≤ w → w < s.cfgWds.toNat →
      t.readRow ref w = s.readRow left w ^^^ s.readRow right w) :
    t.extract ref offset length = s.extract left offset length ^^^ s.extract right offset length := by
  have h' : t.FieldOk offset length := by
    unfold State.FieldOk
    rwa [hp, hcfg]
  refine eq_of_testBit_eq_below (State.extract_lt h')
    (Nat.xor_lt_two_pow (State.extract_lt h) (State.extract_lt h)) fun k hk => ?_
  obtain ⟨hlo, hhi⟩ := h.word_range hk
  rw [Nat.testBit_xor, State.testBit_extract ht ref h' hk, State.testBit_extract hs left h hk,
    State.testBit_extract hs right h hk, hp, hrow _ hlo hhi, BitVec.toNat_xor, Nat.testBit_xor]

/-- A bit of the XOR over a subset is a matter of that bit of its members. -/
theorem testBit_subsetXor_congr {n b b' j : Nat} {f g : Nat → Nat}
    (h : ∀ i, i < n → (f i).testBit b = (g i).testBit b') :
    (subsetXor n f j).testBit b = (subsetXor n g j).testBit b' := by
  induction n with
  | zero => simp [subsetXor]
  | succ n ih =>
    have hlast := h n (Nat.lt_succ_self n)
    rw [subsetXor, subsetXor, Nat.testBit_xor, Nat.testBit_xor, ih fun i hi => h i (Nat.lt_succ_of_lt hi)]
    split
    · rw [hlast]
    · simp

/-- The XOR over a subset of numbers of `b` bits has `b` bits. -/
theorem subsetXor_lt {n b : Nat} {f : Nat → Nat} (h : ∀ i, i < n → f i < 2 ^ b) (j : Nat) :
    subsetXor n f j < 2 ^ b := by
  induction n with
  | zero => exact Nat.two_pow_pos b
  | succ n ih =>
    refine Nat.xor_lt_two_pow (ih fun i hi => h i (Nat.lt_succ_of_lt hi)) ?_
    split
    · exact h n (Nat.lt_succ_self n)
    · exact Nat.two_pow_pos b

/-- The field of the XOR of a subset of rows is the XOR of the subset's fields. -/
theorem State.extract_subsetXor {s t : State} (hs : s.MemoriesWf) (ht : t.MemoriesWf) (hp : t.params = s.params)
    (hcfg : t.cfgWds = s.cfgWds) {ref : RowRef} {rows : Nat → RowRef} {n j offset length : Nat}
    (h : s.FieldOk offset length)
    (hrow : ∀ w, offset / s.params.W ≤ w → w < s.cfgWds.toNat →
      (t.readRow ref w).toNat = subsetXor n (fun i => (s.readRow (rows i) w).toNat) j) :
    t.extract ref offset length = subsetXor n (fun i => s.extract (rows i) offset length) j := by
  have h' : t.FieldOk offset length := by
    unfold State.FieldOk
    rwa [hp, hcfg]
  refine eq_of_testBit_eq_below (State.extract_lt h') (subsetXor_lt (fun _ _ => State.extract_lt h) j)
    fun k hk => ?_
  obtain ⟨hlo, hhi⟩ := h.word_range hk
  rw [State.testBit_extract ht ref h' hk, hp, hrow _ hlo hhi]
  exact testBit_subsetXor_congr fun i _ => (State.testBit_extract hs (rows i) h hk).symm

/-! ## The obligation -/

/-- Settles O10: the field is the sum of its bits, and its bits are the row's columns. -/
theorem extractReturnsTheColumns : Obligations.ExtractReturnsTheColumns := by
  unfold Obligations.ExtractReturnsTheColumns
  intro s _ hwf hready field
  have ⟨_, _, hfield⟩ := hready
  have hsum : field = s.extract (rowRef s.x1) s.x2.toNat s.x3.toNat :=
    calc field
      _ = ∑ k ∈ Finset.range s.x3.toNat,
            ((s.extract (rowRef s.x1) s.x2.toNat s.x3.toNat).testBit k).toNat * 2 ^ k :=
          Finset.sum_congr rfl fun k hk => by
            rw [State.column_eq_testBit_extract hwf (rowRef s.x1) hfield (Finset.mem_range.1 hk)]
      _ = s.extract (rowRef s.x1) s.x2.toNat s.x3.toNat % 2 ^ s.x3.toNat := sum_testBit_eq_mod _ _
      _ = s.extract (rowRef s.x1) s.x2.toNat s.x3.toNat := Nat.mod_eq_of_lt (State.extract_lt hfield)
  rw [exec_extract_of_ready hready, hsum]

end Sys2Proof.Machine
end

section
/-! PROOFS. The eliminate phase: the words that it leaves, in rows and words and in locations, and what follows for
the fields of the processed rows (43_eliminate.md R132 to R136). -/

namespace Sys2Proof.Machine

/-! ## Rows and locations -/

/-- A memory that keeps every word outside a set of words of rows keeps every location outside it (20_memory.md R52,
R53). -/
theorem read_eq_of_rows {m m' : Memory} {n : Nat} (hn : 0 < n) {P : Nat → Nat → Prop}
    (h : ∀ r w, w < n → ¬ P r w → m'.read (r * n + w) = m.read (r * n + w)) {a : Nat}
    (ha : ∀ r w, P r w → a ≠ r * n + w) : m'.read a = m.read a := by
  have hrow := h (a / n) (a % n) (Nat.mod_lt a hn) fun hP => ha _ _ hP (Nat.div_add_mod' a n).symm
  rwa [Nat.div_add_mod'] at hrow

/-- A window that fits a row leaves the row at least one physical word (42_buildtable.md R111). -/
theorem wdsMax_pos_of_passReady {s : State} (h : s.PassReady) : 0 < s.params.wdsMax := by
  obtain ⟨⟨-, -, hwds⟩, ⟨hlo, -⟩, hwindow, -⟩ := h
  have hpos : 0 < s.cfgWds.toNat := Nat.pos_of_ne_zero fun hzero => by
    rw [hzero, Nat.zero_mul] at hwindow
    omega
  exact hpos.trans_le hwds

/-! ## The words that the phase leaves -/

/-- ALL that the eliminate phase does to the words of the matrix: each processed row is XORed, in the touched words,
with the table row that its old field selects (43_eliminate.md R132, R133). -/
theorem readM_elimEffect {s : State} (h : s.PassReady) {r w : Nat} (hw : w < s.params.wdsMax) :
    (elimEffect s).readM r w =
      if s.Processed r ∧ s.Touched w then
        s.readM r w ^^^ s.readZ (s.extract (matrixRow r) s.x1.toNat s.x2.toNat) w
      else s.readM r w := by
  obtain ⟨⟨-, -, hwds⟩, -, -, hrows⟩ := h
  have key := forRange_induction (a := s.x1.toNat + s.x2.toNat) (b := s.cfgM.toNat)
    (body := elimRow s.x1.toNat s.x2.toNat (skipBoundary s.params s.x1.toNat)) (s := s)
    (fun i t => t = { s with M := t.M } ∧ ∀ r w, w < s.params.wdsMax → t.readM r w =
      if (s.x1.toNat + s.x2.toNat ≤ r ∧ r < i) ∧ s.Touched w then
        s.readM r w ^^^ s.readZ (s.extract (matrixRow r) s.x1.toNat s.x2.toNat) w
      else s.readM r w) ?start ?turn
  case start => exact ⟨rfl, fun r w _ => by rw [if_neg (by omega)]⟩
  case turn =>
    rintro i t hlo - ⟨hframe, hread⟩
    have hp : t.params = s.params := by rw [hframe]
    have hcfg : t.cfgWds = s.cfgWds := by rw [hframe]
    have hZ : ∀ e w, t.readZ e w = s.readZ e w := by
      rw [hframe]
      exact fun _ _ => rfl
    have hfresh : ∀ w, w < s.params.wdsMax → t.readM i w = s.readM i w := fun w hw => by
      rw [hread i w hw, if_neg (by omega)]
    have hfield : t.extract (matrixRow i) s.x1.toNat s.x2.toNat =
        s.extract (matrixRow i) s.x1.toNat s.x2.toNat :=
      State.extract_congr hp hcfg fun w _ hw => hfresh w (hw.trans_le hwds)
    obtain ⟨hframe', hread'⟩ := elimRow_spec s.x1.toNat s.x2.toNat (skipBoundary s.params s.x1.toNat) i (s := t)
      (by rw [State.wds, hp, hcfg]; exact hwds)
    refine ⟨by rw [hframe', hframe], fun r w hw => ?_⟩
    rw [hread' r w (by rwa [hp]), hfield, hZ, hread r w hw, State.wds, hcfg]
    by_cases hr : r = i
    · subst hr
      rw [hfresh w hw, if_neg (show ¬ ((s.x1.toNat + s.x2.toNat ≤ r ∧ r < r) ∧ s.Touched w) by omega)]
      exact if_congr (by simp [hlo, skipBoundary]) rfl rfl
    · rw [if_neg fun hturn => hr hturn.1]
      exact if_congr (by omega) rfl rfl
  rw [Nat.max_eq_right hrows] at key
  exact key.2 r w hw

/-- The phase keeps the parameters, so its words are found where they were (20_memory.md R52). -/
theorem readM_elimEffect_eq_read (s : State) (r w : Nat) :
    (elimEffect s).readM r w = (elimEffect s).M.read (r * s.params.wdsMax + w) := by
  rw [State.readM, elimEffect_params]

/-- Every location of the matrix outside the touched words of the processed rows stays (43_eliminate.md R133). -/
theorem read_elimEffect_other {s : State} (h : s.PassReady) {a : Nat}
    (ha : ∀ r w, s.Processed r → s.Touched w → a ≠ r * s.params.wdsMax + w) :
    (elimEffect s).M.read a = s.M.read a := by
  refine read_eq_of_rows (wdsMax_pos_of_passReady h) (P := fun r w => s.Processed r ∧ s.Touched w)
    (fun r w hw hother => ?_) fun r w ⟨hr, hw⟩ => ha r w hr hw
  have hread := readM_elimEffect h (r := r) hw
  rwa [if_neg hother, readM_elimEffect_eq_read] at hread

/-- The phase changes no data when the table rows that it selects are zero (43_eliminate.md R136). -/
theorem elimEffect_eq_self {s : State} (hwf : s.MemoriesWf) (h : s.PassReady)
    (hzero : ∀ r w, s.Processed r → s.Touched w →
      s.readZ (s.extract (matrixRow r) s.x1.toNat s.x2.toNat) w = 0) : elimEffect s = s := by
  have ⟨hrun, _⟩ := h
  have ⟨hM, _⟩ := hwf
  obtain ⟨hM', -⟩ := hwf.elimEffect hrun
  rw [elimEffect_params] at hM'
  have hread : ∀ a, (elimEffect s).M.read a = s.M.read a := fun a => by
    refine read_eq_of_rows (wdsMax_pos_of_passReady h) (P := fun _ _ => False) (fun r w hw _ => ?_) nofun
    have hword := readM_elimEffect h (r := r) hw
    rw [readM_elimEffect_eq_read] at hword
    rw [hword]
    split
    · next htouched =>
      rw [hzero r w htouched.1 htouched.2]
      exact BitVec.xor_zero
    · rfl
  rw [elimEffect_frame, Memory.ext_of_wf hM' hM hread]

/-- When every table row's own field is its index, every processed row is left with a zero field: the old field is
XORed with itself (43_eliminate.md R134). -/
theorem extract_elimEffect_eq_zero {s : State} (hlegal : s.params.Legal) (hwf : s.MemoriesWf) (h : s.PassReady)
    (htable : ∀ c, c < 2 ^ s.x2.toNat → s.extract (tableRow c) s.x1.toNat s.x2.toNat = c) {r : Nat}
    (hr : s.Processed r) : (elimEffect s).extract (matrixRow r) s.x1.toNat s.x2.toNat = 0 := by
  have hfield := fieldOk_of_passReady hlegal h
  have ⟨hrun, _⟩ := h
  have ⟨_, _, hwds⟩ := hrun
  have hxor := State.extract_xor hwf (hwf.elimEffect hrun) (elimEffect_params s) (elimEffect_cfgWds s)
    (ref := matrixRow r) (left := matrixRow r)
    (right := tableRow (s.extract (matrixRow r) s.x1.toNat s.x2.toNat)) hfield fun w hlo hhi => by
      simp only [State.readRow_matrixRow, State.readRow_tableRow]
      rw [readM_elimEffect h (hhi.trans_le hwds), if_pos ⟨hr, hlo, hhi⟩]
  rw [hxor, htable _ (State.extract_lt hfield), Nat.xor_self]

/-! ## The obligations -/

/-- `ELIM` that runs normally is the eliminate phase (43_eliminate.md R131, R132). -/
theorem exec_elim_of_ready {s : State} (h : s.ElimReady) : exec .elim s = .next (elimEffect s) := by
  obtain ⟨hpass, htag⟩ := h
  have ⟨⟨hf, _⟩, _⟩ := hpass
  rw [exec_elim, command_of_none hf (by rw [firstCause_elimChecks_of_passReady hpass, if_pos htag])]

/-- Settles O22: the answer is that of the eliminate phase. -/
theorem elimXorsTheSelectedRow : Obligations.ElimXorsTheSelectedRow := by
  unfold Obligations.ElimXorsTheSelectedRow
  intro s hready
  have ⟨hpass, _⟩ := hready
  have ⟨⟨_, _, hwds⟩, _⟩ := hpass
  refine ⟨_, exec_elim_of_ready hready, elimEffect_frame s, fun r w hr hw => ?_,
    fun a => read_elimEffect_other hpass⟩
  rw [readM_elimEffect hpass (hw.2.trans_le hwds), if_pos ⟨hr, hw⟩]

/-- Settles O23: the answer is that of the eliminate phase. -/
theorem elimZeroesTheField : Obligations.ElimZeroesTheField := by
  unfold Obligations.ElimZeroesTheField
  intro s hlegal hwf hready htable
  exact ⟨_, exec_elim_of_ready hready, fun r hr => extract_elimEffect_eq_zero hlegal hwf hready.1 htable hr⟩

/-- Settles O24: every processed row selects the zero row 0. -/
theorem elimAgainChangesNothing : Obligations.ElimAgainChangesNothing := by
  unfold Obligations.ElimAgainChangesNothing
  intro s hwf hready hfields hrow
  rw [exec_elim_of_ready hready, elimEffect_eq_self hwf hready.1 fun r w hr hw => by rw [hfields r hr, hrow w hw]]

end Sys2Proof.Machine
end

section
/-! PROOFS. The build phase: subset sums of the pivot rows, the doubling loop held against the fold of its writes,
and what the table it leaves holds (42_buildtable.md R113 to R123). -/

namespace Sys2Proof.Machine

/-! ## Subset sums -/

/-- The XOR over a subset is a matter of its members and of the bits that choose them. -/
theorem subsetXor_congr {n j j' : Nat} {f g : Nat → Nat}
    (h : ∀ i, i < n → f i = g i ∧ j.testBit i = j'.testBit i) : subsetXor n f j = subsetXor n g j' := by
  induction n with
  | zero => rfl
  | succ n ih =>
    obtain ⟨hf, hj⟩ := h n (Nat.lt_succ_self n)
    rw [subsetXor, subsetXor, ih fun i hi => h i (Nat.lt_succ_of_lt hi), hf, hj]

/-- The empty subset XORs to 0. -/
@[simp] theorem subsetXor_empty (n : Nat) (f : Nat → Nat) : subsetXor n f 0 = 0 := by
  induction n with
  | zero => rfl
  | succ n ih => simp [subsetXor, ih]

/-- The symmetric difference of two subsets XORs to the XOR of what they XOR to. -/
theorem subsetXor_xor (n : Nat) (f : Nat → Nat) (j j' : Nat) :
    subsetXor n f (j ^^^ j') = subsetXor n f j ^^^ subsetXor n f j' := by
  induction n with
  | zero => simp [subsetXor]
  | succ n ih =>
    have hlast : (if (j ^^^ j').testBit n then f n else 0) =
        (if j.testBit n then f n else 0) ^^^ (if j'.testBit n then f n else 0) := by
      rw [Nat.testBit_xor]
      cases j.testBit n <;> cases j'.testBit n <;> simp
    rw [subsetXor, subsetXor, subsetXor, ih, hlast]
    ac_rfl

/-- A member above the others is XORed on: the doubling of 42_buildtable.md R117. -/
theorem subsetXor_two_pow_add {n k j : Nat} (f : Nat → Nat) (hk : k < n) (hj : j < 2 ^ k) :
    subsetXor n f (2 ^ k + j) = subsetXor n f j ^^^ f k := by
  induction n with
  | zero => omega
  | succ n ih =>
    rw [subsetXor, subsetXor]
    rcases Nat.lt_or_ge k n with hlt | hge
    · have hslot := two_pow_add_lt hlt hj
      rw [ih hlt, Nat.testBit_lt_two_pow hslot, Nat.testBit_lt_two_pow ((Nat.le_add_left _ _).trans_lt hslot)]
      simp
    · obtain rfl : k = n := by omega
      have hlow : subsetXor k f (2 ^ k + j) = subsetXor k f j :=
        subsetXor_congr fun i hi => ⟨rfl, Nat.testBit_two_pow_add_gt hi j⟩
      rw [hlow, Nat.testBit_two_pow_add_eq, Nat.testBit_lt_two_pow hj]
      simp

/-- The subset mask is the sum of the unit bits of its members (42_buildtable.md R120). -/
theorem subsetXor_two_pow (n j : Nat) : subsetXor n (fun i => 2 ^ i) j = j % 2 ^ n := by
  induction n with
  | zero => simp [subsetXor, Nat.mod_one]
  | succ n ih =>
    refine Nat.eq_of_testBit_eq fun b => ?_
    rw [subsetXor, ih, Nat.testBit_xor, Nat.testBit_mod_two_pow, Nat.testBit_mod_two_pow]
    rcases Nat.lt_trichotomy b n with h | rfl | h
    · have hne : n ≠ b := by omega
      cases j.testBit n <;> simp [h, Nat.lt_succ_of_lt h, hne]
    · cases hb : j.testBit b <;> simp
    · have hne : n ≠ b := by omega
      have hge : ¬ b < n := by omega
      have hge' : ¬ b < n + 1 := by omega
      cases j.testBit n <;> simp [hge, hge', hne]

/-! ## The fields of the pivot rows -/

theorem State.pivotField_lt {s : State} (hlegal : s.params.Legal) (h : s.PassReady) (i : Nat) :
    s.pivotField i < 2 ^ s.x2.toNat :=
  State.extract_lt (fieldOk_of_passReady hlegal h)

theorem State.subsetField_lt {s : State} (hlegal : s.params.Legal) (h : s.PassReady) (j : Nat) :
    s.subsetField j < 2 ^ s.x2.toNat :=
  subsetXor_lt (fun i _ => State.pivotField_lt hlegal h i) j

/-- The value that the loop computes for a slot from the one it reads (42_buildtable.md R117). -/
theorem State.subsetField_two_pow_add (s : State) {i j : Nat} (hi : i < s.x2.toNat) (hj : j < 2 ^ i) :
    s.subsetField (2 ^ i + j) = s.subsetField j ^^^ s.pivotField i :=
  subsetXor_two_pow_add s.pivotField hi hj

/-- With independent pivot fields different subsets have different fields (42_buildtable.md R118). -/
theorem State.subsetField_inj {s : State} (h : s.IndependentFields) {j j' : Nat} (hj : j < 2 ^ s.x2.toNat)
    (hj' : j' < 2 ^ s.x2.toNat) (heq : s.subsetField j = s.subsetField j') : j = j' := by
  have hzero : s.subsetField (j ^^^ j') = 0 := by
    rw [State.subsetField, subsetXor_xor]
    exact Nat.xor_eq_zero_iff.2 heq
  by_contra hne
  exact h (j ^^^ j') (Nat.xor_lt_two_pow hj hj') (mt Nat.xor_eq_zero_iff.1 hne) hzero

/-- With independent pivot fields every value is the field of a subset (42_buildtable.md R119). -/
theorem State.exists_subsetField_eq {s : State} (hlegal : s.params.Legal) (hready : s.PassReady)
    (h : s.IndependentFields) {c : Nat} (hc : c < 2 ^ s.x2.toNat) :
    ∃ j, j < 2 ^ s.x2.toNat ∧ s.subsetField j = c := by
  have hinj : Function.Injective fun j : Fin (2 ^ s.x2.toNat) =>
      (⟨s.subsetField j, State.subsetField_lt hlegal hready j⟩ : Fin (2 ^ s.x2.toNat)) := fun j j' heq =>
    Fin.ext (State.subsetField_inj h j.isLt j'.isLt (Fin.mk.inj heq))
  obtain ⟨j, hj⟩ := Finite.injective_iff_surjective.1 hinj ⟨c, hc⟩
  exact ⟨j, j.isLt, Fin.mk.inj hj⟩

/-! ## Two loops side by side -/

/-- A relation between the values of two loops over the same range, true at the start and kept by every turn, holds
at the end. -/
theorem forRange_related {σ τ : Type} {a b : Nat} {body : Nat → σ → σ} {body' : Nat → τ → τ} {s : σ} {s' : τ}
    (R : Nat → σ → τ → Prop) (start : R a s s')
    (turn : ∀ i t t', a ≤ i → i < b → R i t t' → R (i + 1) (body i t) (body' i t')) :
    R (max a b) (forRange a b body s) (forRange a b body' s') := by
  rcases Nat.le_total b a with h | h
  · rw [forRange_of_le h, forRange_of_le h, Nat.max_eq_left h]
    exact start
  · rw [Nat.max_eq_right h]
    induction b, h using Nat.le_induction with
    | base =>
      rw [forRange_of_le le_rfl, forRange_of_le le_rfl]
      exact start
    | succ n hn ih =>
      rw [forRange_succ_last hn, forRange_succ_last hn]
      exact turn _ _ _ hn (Nat.lt_succ_self n) (ih fun i t t' h1 h2 => turn i t t' h1 (Nat.lt_succ_of_lt h2))

/-! ## The fold of the writes -/

/-- The fold over the pairs of the loop is the two nested loops (42_buildtable.md R115). -/
theorem State.builtTable_eq_forRange (s : State) :
    s.builtTable = forRange 0 s.x2.toNat
      (fun i table => forRange 0 (2 ^ i) (fun j table => s.tableStep table (i, j)) table) fun _ _ => 0 := by
  simp only [State.builtTable, buildOrder, List.foldl_flatMap, List.foldl_map, forRange_eq_foldl, Nat.sub_zero,
    List.range_eq_range']

/-- Induction over the writes, with the number of slots filled: slot `2^i + j` is filled by the turn `(i, j)`
(42_buildtable.md R115). -/
theorem State.builtTable_induction {s : State} (motive : Nat → (Nat → Nat → Word) → Prop)
    (start : motive 1 fun _ _ => 0)
    (turn : ∀ i j table, i < s.x2.toNat → j < 2 ^ i → motive (2 ^ i + j) table →
      motive (2 ^ i + j + 1) (s.tableStep table (i, j))) : motive (2 ^ s.x2.toNat) s.builtTable := by
  have key := forRange_induction (a := 0) (b := s.x2.toNat)
    (body := fun i table => forRange 0 (2 ^ i) (fun j table => s.tableStep table (i, j)) table)
    (s := fun _ _ => 0) (fun i table => motive (2 ^ i) table) start fun i table _ hi htable => by
      have inner := forRange_induction (a := 0) (b := 2 ^ i) (body := fun j table => s.tableStep table (i, j))
        (s := table) (fun j table => motive (2 ^ i + j) table) htable fun j table _ hj => turn i j table hi hj
      rwa [Nat.zero_max, ← Nat.two_pow_succ] at inner
  rwa [Nat.zero_max, ← State.builtTable_eq_forRange] at key

/-- A row that is the field of no subset is never written (42_buildtable.md R121). -/
theorem State.builtTable_unselected {s : State} {c : Nat} (hc : ∀ j, j < 2 ^ s.x2.toNat → s.subsetField j ≠ c)
    (w : Nat) : s.builtTable c w = 0 := by
  refine State.builtTable_induction (fun _ table => table c w = 0) rfl fun i j table hi hj htable => ?_
  have hslot : 2 ^ i + j < 2 ^ s.x2.toNat := two_pow_add_lt hi hj
  have hother := hc _ hslot
  rw [s.subsetField_two_pow_add hi hj] at hother
  rw [State.tableStep_other s table w hother.symm, htable]

/-- With independent pivot fields no write falls on a row that another subset selects, so row `V(j)` holds `C(j)`
(42_buildtable.md R118). -/
theorem State.builtTable_subsetField {s : State} (h : s.IndependentFields) {j : Nat} (hj : j < 2 ^ s.x2.toNat)
    (w : Nat) : (s.builtTable (s.subsetField j) w).toNat = s.subsetWord j w := by
  refine State.builtTable_induction
    (fun n table => n ≤ 2 ^ s.x2.toNat → ∀ l, l < n → (table (s.subsetField l) w).toNat = s.subsetWord l w)
    (fun _ l hl => ?start) (fun i k table hi hk htable hn l hl => ?turn) le_rfl j hj
  case start =>
    obtain rfl : l = 0 := by omega
    simp [State.subsetWord]
  case turn =>
    have ih := htable (by omega)
    by_cases hlast : l = 2 ^ i + k
    · subst hlast
      rw [s.subsetField_two_pow_add hi hk, State.tableStep_same, BitVec.toNat_xor, ih k (by omega),
        State.subsetWord, State.subsetWord, subsetXor_two_pow_add _ hi hk]
    · have hother : s.subsetField l ≠ s.subsetField k ^^^ s.pivotField i := by
        rw [← s.subsetField_two_pow_add hi hk]
        exact fun heq => hlast (State.subsetField_inj h (by omega) (by omega) heq)
      rw [State.tableStep_other s table w hother, ih l (by omega)]

/-- Zero pivot rows leave the table zero (43_eliminate.md R137). -/
theorem State.builtTable_eq_zero {s : State} {w : Nat}
    (h : ∀ i, i < s.x2.toNat → s.readM (s.x1.toNat + i) w = 0) (e : Nat) : s.builtTable e w = 0 := by
  refine State.builtTable_induction (s := s) (fun _ table => ∀ e, table e w = 0) (fun _ => rfl)
    (fun i j table hi _ htable e => ?_) e
  rw [State.tableStep, htable, htable, h i hi]
  simp

/-- Word `w` of the table is a function of the pivot fields and of word `w` of the pivot rows
(42_buildtable.md R123). -/
theorem State.builtTable_congr {s s' : State} {w : Nat} (hS : s'.x2 = s.x2)
    (hfield : ∀ i, i < s.x2.toNat → s'.pivotField i = s.pivotField i)
    (hrow : ∀ i, i < s.x2.toNat → s'.readM (s'.x1.toNat + i) w = s.readM (s.x1.toNat + i) w) (e : Nat) :
    s'.builtTable e w = s.builtTable e w := by
  have hsubset : ∀ j, s'.subsetField j = s.subsetField j := fun j => by
    rw [State.subsetField, State.subsetField, hS]
    exact subsetXor_congr fun i hi => ⟨hfield i hi, rfl⟩
  rw [State.builtTable_eq_forRange, State.builtTable_eq_forRange, hS]
  refine forRange_related (fun _ (table table' : Nat → Nat → Word) => ∀ e, table e w = table' e w) (fun _ => rfl)
    (fun i table table' _ hi htable => ?_) e
  refine forRange_related (fun _ (table table' : Nat → Nat → Word) => ∀ e, table e w = table' e w) htable
    fun j table table' _ _ htable e => ?_
  simp only [State.tableStep, hsubset, hfield i hi, hrow i hi, htable]

/-! ## The loop of the machine beside the fold -/

/-- Where the loop of `BUILD` stands with `n` slots filled: they hold the fields of their subsets, the range of the
table holds `table`, and nothing else has changed. -/
structure State.BuildProgress (s : State) (n : Nat) (t : State) (table : Nat → Nat → Word) : Prop where
  /-- Only the table and the membership array have changed. -/
  frame : t = { s with Z := t.Z, zi := t.zi }
  /-- The slots filled so far (42_buildtable.md R117). -/
  entries : ∀ j, j < n → (t.readZI j).toNat = s.subsetField j
  /-- The entries at and above `2^S` are as before (42_buildtable.md R123). -/
  entries_above : ∀ j, 2 ^ s.x2.toNat ≤ j → t.zi.read j = s.zi.read j
  /-- The words of the table: `table` in the range, as before outside it. -/
  rows : ∀ e w, w < s.params.wdsMax →
    t.readZ e w = if e < 2 ^ s.x2.toNat ∧ s.Touched w then table e w else s.readZ e w

/-- The zero fill and the first entry (42_buildtable.md R114). -/
theorem State.buildProgress_start {s : State} (h : s.PassReady) :
    s.BuildProgress 1 ((zeroFill s.x2.toNat (skipBoundary s.params s.x1.toNat) s).writeZI 0 0) fun _ _ => 0 := by
  obtain ⟨⟨-, -, hwds⟩, -⟩ := h
  obtain ⟨hframe, hrows⟩ := zeroFill_spec s.x2.toNat (skipBoundary s.params s.x1.toNat) (s := s) hwds
  have hzi : (zeroFill s.x2.toNat (skipBoundary s.params s.x1.toNat) s).zi = s.zi := by rw [hframe]
  constructor
  case frame =>
    rw [hframe]
    rfl
  case entries =>
    intro j hj
    obtain rfl : j = 0 := by omega
    simp [State.readZI, State.subsetField]
  case entries_above =>
    intro j hj
    have hne : j ≠ 0 := by
      have hpos := Nat.two_pow_pos s.x2.toNat
      omega
    rw [State.writeZI_zi, Memory.read_write_other _ _ hne, hzi]
  case rows => exact hrows

/-- One slot: the machine's turn is the fold's write (42_buildtable.md R113, R117). -/
theorem State.BuildProgress.slot {s t : State} {table : Nat → Nat → Word} (hlegal : s.params.Legal)
    (hready : s.PassReady) {i j : Nat} (hi : i < s.x2.toNat) (hj : j < 2 ^ i)
    (h : s.BuildProgress (2 ^ i + j) t table) :
    s.BuildProgress (2 ^ i + j + 1)
      (buildSlot (s.x1.toNat + i) (s.pivotField i) (2 ^ i) (skipBoundary s.params s.x1.toNat) j t)
      (s.tableStep table (i, j)) := by
  obtain ⟨hframe, hentries, habove, hrows⟩ := h
  have hS := pivotCount_le_sixteen hlegal hready
  have ⟨⟨_, _, hwds⟩, _⟩ := hready
  have hp : t.params = s.params := by rw [hframe]
  have hcfg : t.cfgWds = s.cfgWds := by rw [hframe]
  have hreadM : ∀ r w, t.readM r w = s.readM r w := by
    rw [hframe]
    exact fun _ _ => rfl
  have hold : (t.readZI j).toNat = s.subsetField j := hentries j (by omega)
  have hnew := s.subsetField_two_pow_add hi hj
  have hlt := State.subsetField_lt hlegal hready (2 ^ i + j)
  have hslot : 2 ^ i + j < 2 ^ s.x2.toNat := two_pow_add_lt hi hj
  obtain ⟨hframe', hrows'⟩ := buildSlot_spec (s.x1.toNat + i) (s.pivotField i) (2 ^ i)
    (skipBoundary s.params s.x1.toNat) j (s := t) (by rw [State.wds, hp, hcfg]; exact hwds)
  rw [hold, ← hnew] at hframe' hrows'
  generalize buildSlot (s.x1.toNat + i) (s.pivotField i) (2 ^ i) (skipBoundary s.params s.x1.toNat) j t = u
    at hframe' hrows'
  have hzi : u.zi = t.zi.write (2 ^ i + j) (BitVec.ofNat 32 (s.subsetField (2 ^ i + j))) := by
    rw [hframe', Nat.add_comm j]
  constructor
  case frame => rw [hframe', hframe]
  case entries =>
    intro l hl
    rw [State.readZI, hzi]
    by_cases hlast : l = 2 ^ i + j
    · have hpow : 2 ^ s.x2.toNat ≤ 2 ^ 16 := Nat.pow_le_pow_right (by decide) hS
      rw [hlast, Memory.read_write_same, BitVec.toNat_ofNat, Nat.mod_eq_of_lt (by omega)]
    · rw [Memory.read_write_other _ _ hlast]
      exact hentries l (by omega)
  case entries_above =>
    intro l hl
    rw [hzi, Memory.read_write_other _ _ (by omega), habove l hl]
  case rows =>
    intro e w hw
    rw [hrows' e w (by rwa [hp]), hrows e w hw, hrows _ w hw, hreadM, State.wds, hcfg, State.tableStep, ← hnew]
    by_cases htouched : s.Touched w
    · by_cases he : e = s.subsetField (2 ^ i + j)
      · rw [if_pos ⟨he, htouched⟩, if_pos ⟨State.subsetField_lt hlegal hready j, htouched⟩,
          if_pos ⟨he ▸ hlt, htouched⟩, if_pos he]
      · rw [if_neg fun hturn => he hturn.1, if_neg he]
    · rw [if_neg fun hturn => htouched hturn.2, if_neg fun hturn => htouched hturn.2,
        if_neg fun hturn => htouched hturn.2]

/-- One pivot row: its field is read from the matrix, which the loop leaves alone (42_buildtable.md R113). -/
theorem State.BuildProgress.pivot {s t : State} {table : Nat → Nat → Word} (hlegal : s.params.Legal)
    (hready : s.PassReady) {i : Nat} (hi : i < s.x2.toNat) (h : s.BuildProgress (2 ^ i) t table) :
    s.BuildProgress (2 ^ (i + 1)) (buildPivot s.x1.toNat s.x2.toNat (skipBoundary s.params s.x1.toNat) i t)
      (forRange 0 (2 ^ i) (fun j table => s.tableStep table (i, j)) table) := by
  have hfield : t.extract (matrixRow (s.x1.toNat + i)) s.x1.toNat s.x2.toNat = s.pivotField i := by
    rw [h.frame]
    exact State.extract_congr rfl rfl fun _ _ _ => rfl
  have key := forRange_related (a := 0) (b := 2 ^ i)
    (fun j t table => s.BuildProgress (2 ^ i + j) t table) h
    fun j t table _ hj (hturn : s.BuildProgress (2 ^ i + j) t table) => hturn.slot hlegal hready hi hj
  rwa [Nat.zero_max, ← Nat.two_pow_succ, ← hfield] at key

/-- ALL that the build phase does: the loop fills the slots as it should and the range of the table with the fold of
its writes; then the tag is set (42_buildtable.md R113, R116). -/
theorem exists_buildProgress {s : State} (hlegal : s.params.Legal) (hready : s.PassReady) :
    ∃ t, s.BuildProgress (2 ^ s.x2.toNat) t s.builtTable ∧ buildEffect s = t.setTag := by
  refine ⟨_, ?_, rfl⟩
  have key := forRange_related (a := 0) (b := s.x2.toNat)
    (fun i t table => s.BuildProgress (2 ^ i) t table) (State.buildProgress_start hready)
    fun i t table _ hi (hturn : s.BuildProgress (2 ^ i) t table) => hturn.pivot hlegal hready hi
  rwa [Nat.zero_max, ← State.builtTable_eq_forRange] at key

/-! ## What the phase leaves -/

/-- The membership array (42_buildtable.md R117). -/
theorem readZI_buildEffect {s : State} (hlegal : s.params.Legal) (hready : s.PassReady) {j : Nat}
    (hj : j < 2 ^ s.x2.toNat) : ((buildEffect s).readZI j).toNat = s.subsetField j := by
  obtain ⟨t, hprogress, heq⟩ := exists_buildProgress hlegal hready
  rw [heq]
  exact hprogress.entries j hj

/-- The entries outside the range (42_buildtable.md R123). -/
theorem read_zi_buildEffect_above {s : State} (hlegal : s.params.Legal) (hready : s.PassReady) {j : Nat}
    (hj : 2 ^ s.x2.toNat ≤ j) : (buildEffect s).zi.read j = s.zi.read j := by
  obtain ⟨t, hprogress, heq⟩ := exists_buildProgress hlegal hready
  rw [heq]
  exact hprogress.entries_above j hj

/-- The words of the table (42_buildtable.md R113, R123). -/
theorem readZ_buildEffect {s : State} (hlegal : s.params.Legal) (hready : s.PassReady) {e w : Nat}
    (hw : w < s.params.wdsMax) :
    (buildEffect s).readZ e w =
      if e < 2 ^ s.x2.toNat ∧ s.Touched w then s.builtTable e w else s.readZ e w := by
  obtain ⟨t, hprogress, heq⟩ := exists_buildProgress hlegal hready
  rw [heq]
  exact hprogress.rows e w hw

/-- The words of the table in the range (42_buildtable.md R113). -/
theorem readZ_buildEffect_of_touched {s : State} (hlegal : s.params.Legal) (hready : s.PassReady) {e w : Nat}
    (he : e < 2 ^ s.x2.toNat) (hw : s.Touched w) : (buildEffect s).readZ e w = s.builtTable e w := by
  have ⟨⟨_, _, hwds⟩, _⟩ := hready
  rw [readZ_buildEffect hlegal hready (hw.2.trans_le hwds), if_pos ⟨he, hw⟩]

/-- The locations of the table outside the range (42_buildtable.md R123). -/
theorem read_Z_buildEffect_other {s : State} (hlegal : s.params.Legal) (hready : s.PassReady) {a : Nat}
    (ha : ∀ e w, e < 2 ^ s.x2.toNat → s.Touched w → a ≠ e * s.params.wdsMax + w) :
    (buildEffect s).Z.read a = s.Z.read a := by
  refine read_eq_of_rows (wdsMax_pos_of_passReady hready) (P := fun e w => e < 2 ^ s.x2.toNat ∧ s.Touched w)
    (fun e w hw hother => ?_) fun e w ⟨he, hw⟩ => ha e w he hw
  have hread := readZ_buildEffect hlegal hready (e := e) hw
  rwa [if_neg hother, State.readZ, buildEffect_params] at hread

/-- With independent pivot fields table row `V(j)` holds `C(j)` in the touched words (42_buildtable.md R118). -/
theorem readZ_buildEffect_subsetField {s : State} (hlegal : s.params.Legal) (hready : s.PassReady)
    (h : s.IndependentFields) {j w : Nat} (hj : j < 2 ^ s.x2.toNat) (hw : s.Touched w) :
    ((buildEffect s).readZ (s.subsetField j) w).toNat = s.subsetWord j w := by
  rw [readZ_buildEffect_of_touched hlegal hready (State.subsetField_lt hlegal hready j) hw,
    State.builtTable_subsetField h hj]

/-- With independent pivot fields every table row's own field is its index: the row is the XOR of a subset of pivot
rows, so its field is the XOR of the subset's fields (42_buildtable.md R119). -/
theorem extract_buildEffect_tableRow {s : State} (hlegal : s.params.Legal) (hwf : s.MemoriesWf)
    (hready : s.PassReady) (h : s.IndependentFields) {c : Nat} (hc : c < 2 ^ s.x2.toNat) :
    (buildEffect s).extract (tableRow c) s.x1.toNat s.x2.toNat = c := by
  obtain ⟨j, hj, rfl⟩ := State.exists_subsetField_eq hlegal hready h hc
  exact State.extract_subsetXor hwf (hwf.buildEffect hlegal hready) (buildEffect_params s) (buildEffect_cfgWds s)
    (rows := fun i => matrixRow (s.x1.toNat + i)) (fieldOk_of_passReady hlegal hready)
    fun w hlo hhi => readZ_buildEffect_subsetField hlegal hready h hj ⟨hlo, hhi⟩

/-! ## The obligations -/

/-- `BUILD` that runs normally is the build phase (42_buildtable.md R111, R113). -/
theorem exec_build_of_ready {s : State} (h : s.PassReady) : exec .build s = .next (buildEffect s) := by
  have ⟨⟨hf, _⟩, _⟩ := h
  rw [exec_build, command_of_none hf (firstCause_windowChecks_of_passReady h)]

/-- The tag word of a pivot count that fits its field (42_buildtable.md R116). -/
theorem validTblCnt_eq_ofNat {S : Word} (h : S.toNat < 256) : validTblCnt S = BitVec.ofNat 32 (2 ^ 31 + S.toNat) := by
  apply BitVec.eq_of_toNat_eq
  rw [validTblCnt_toNat, BitVec.toNat_ofNat]
  omega

/-- The tag that the phase sets (42_buildtable.md R116). -/
theorem buildEffect_eq_tag {s : State} (hlegal : s.params.Legal) (hready : s.PassReady) :
    buildEffect s = { s with Z := (buildEffect s).Z, zi := (buildEffect s).zi, tblOff := s.x1,
                             tblCnt := BitVec.ofNat 32 (2 ^ 31 + s.x2.toNat) } := by
  have hS := pivotCount_le_sixteen hlegal hready
  rw [← validTblCnt_eq_ofNat (by omega)]
  exact buildEffect_frame s

/-- Settles O14: nothing but the range and the tag is written. -/
theorem buildWritesOnlyItsRange : Obligations.BuildWritesOnlyItsRange := by
  unfold Obligations.BuildWritesOnlyItsRange
  intro s hlegal hready
  exact ⟨_, exec_build_of_ready hready, buildEffect_eq_tag hlegal hready,
    fun a => read_Z_buildEffect_other hlegal hready, fun j => read_zi_buildEffect_above hlegal hready⟩

/-- Settles O15: the slots are filled by the doubling of R117. -/
theorem buildMembershipHoldsSubsetFields : Obligations.BuildMembershipHoldsSubsetFields := by
  unfold Obligations.BuildMembershipHoldsSubsetFields
  intro s hlegal hready
  exact ⟨_, exec_build_of_ready hready, fun j => readZI_buildEffect hlegal hready⟩

/-- Settles O16: no two subsets share a row. -/
theorem buildTableHoldsSubsetRows : Obligations.BuildTableHoldsSubsetRows := by
  unfold Obligations.BuildTableHoldsSubsetRows
  intro s hlegal hready h
  exact ⟨_, exec_build_of_ready hready, fun j w => readZ_buildEffect_subsetField hlegal hready h⟩

/-- Settles O44: the loop runs beside the fold of its writes. -/
theorem buildTableIsTheOrderedFold : Obligations.BuildTableIsTheOrderedFold := by
  unfold Obligations.BuildTableIsTheOrderedFold
  intro s hlegal hready
  exact ⟨_, exec_build_of_ready hready, fun e w => readZ_buildEffect_of_touched hlegal hready⟩

/-- Settles O17: every row is the XOR of a subset of pivot rows, whose field is its index. -/
theorem buildTableFieldIsItsIndex : Obligations.BuildTableFieldIsItsIndex := by
  unfold Obligations.BuildTableFieldIsItsIndex
  intro s hlegal hwf hready h
  exact ⟨_, exec_build_of_ready hready, fun c => extract_buildEffect_tableRow hlegal hwf hready h⟩

/-- Settles O18: with unit fields a subset's field is its mask, so the fields are independent. -/
theorem buildOnIdentityBlockIndexesByMask : Obligations.BuildOnIdentityBlockIndexesByMask := by
  unfold Obligations.BuildOnIdentityBlockIndexesByMask
  intro s hlegal hready hunit
  have hmask : ∀ j, j < 2 ^ s.x2.toNat → s.subsetField j = j := fun j hj =>
    calc s.subsetField j
      _ = subsetXor s.x2.toNat (fun i => 2 ^ i) j := subsetXor_congr fun i hi => ⟨hunit i hi, rfl⟩
      _ = j % 2 ^ s.x2.toNat := subsetXor_two_pow _ j
      _ = j := Nat.mod_eq_of_lt hj
  have hindependent : s.IndependentFields := fun j hj hne => by rwa [hmask j hj]
  refine ⟨_, exec_build_of_ready hready, fun j hj => ⟨?_, fun w hw => ?_⟩⟩
  · rw [readZI_buildEffect hlegal hready hj, hmask j hj]
  · have hrow := readZ_buildEffect_subsetField hlegal hready hindependent hj hw
    rwa [hmask j hj] at hrow

/-- Settles O19: no write falls on such a row. -/
theorem buildZeroFillsUnselectedRows : Obligations.BuildZeroFillsUnselectedRows := by
  unfold Obligations.BuildZeroFillsUnselectedRows
  intro s hlegal hready
  refine ⟨_, exec_build_of_ready hready, fun c hc hnone w hw => ?_⟩
  rw [readZ_buildEffect_of_touched hlegal hready hc hw, State.builtTable_unselected hnone]

/-- Settles O20: the pivot fields are those of the touched words of the pivot rows, and the array and the fold are
functions of the fields and of those words. -/
theorem buildDependsOnPivotRowsOnly : Obligations.BuildDependsOnPivotRowsOnly := by
  unfold Obligations.BuildDependsOnPivotRowsOnly
  intro s s' hlegal hready hready' hp hoff hS hcfg hrows
  have hlegal' : s'.params.Legal := hp ▸ hlegal
  have hfield : ∀ i, i < s.x2.toNat → s'.pivotField i = s.pivotField i := fun i hi => by
    rw [State.pivotField, State.pivotField, hoff, hS]
    exact State.extract_congr hp hcfg fun w hlo hhi => hrows i w hi ⟨hlo, hhi⟩
  refine ⟨_, _, exec_build_of_ready hready, exec_build_of_ready hready', fun e w he hw => ?table, fun j hj => ?entry⟩
  case table =>
    have hw' : s'.Touched w := by
      unfold State.Touched
      rwa [hoff, hp, hcfg]
    rw [readZ_buildEffect_of_touched hlegal hready he hw,
      readZ_buildEffect_of_touched hlegal' hready' (hS ▸ he) hw']
    exact State.builtTable_congr hS hfield (fun i hi => by rw [hoff, hrows i w hi hw]) e
  case entry =>
    apply BitVec.eq_of_toNat_eq
    rw [readZI_buildEffect hlegal hready hj, readZI_buildEffect hlegal' hready' (hS ▸ hj), State.subsetField,
      State.subsetField, hS]
    exact subsetXor_congr fun i hi => ⟨hfield i hi, rfl⟩

end Sys2Proof.Machine
end

section
/-! PROOFS. The command `PASS`: the build phase leaves a state in which `ELIM` runs normally, and the table it leaves
is the one that the eliminate phase needs (44_pass.md R147 to R150). -/

namespace Sys2Proof.Machine

/-! ## Between the two phases -/

/-- After the build phase the tag is that of the operands, so `ELIM` runs normally (44_pass.md R147). -/
theorem elimReady_buildEffect {s : State} (hlegal : s.params.Legal) (h : s.PassReady) :
    (buildEffect s).ElimReady := by
  have hS := pivotCount_le_sixteen hlegal h
  refine ⟨passReady_buildEffect h, ?_, ?_, ?_⟩
  · rw [State.tblValid, buildEffect_tblCnt, validTblCnt_valid]
  · rw [buildEffect_tblOff, buildEffect_x1]
  · rw [State.tblCount, buildEffect_tblCnt, validTblCnt_count (by omega), buildEffect_x2]

/-- The rows to process are the same after the build phase. -/
theorem processed_buildEffect {s : State} {r : Nat} : (buildEffect s).Processed r ↔ s.Processed r := by
  unfold State.Processed
  rw [buildEffect_x1, buildEffect_x2, buildEffect_cfgM]

/-- The words to touch are the same after the build phase. -/
theorem touched_buildEffect {s : State} {w : Nat} : (buildEffect s).Touched w ↔ s.Touched w := by
  unfold State.Touched
  rw [buildEffect_x1, buildEffect_params, buildEffect_cfgWds]

/-- The build phase leaves the words of the matrix, which it does not write (42_buildtable.md R116). -/
theorem readM_buildEffect (s : State) (r w : Nat) : (buildEffect s).readM r w = s.readM r w := by
  rw [State.readM, State.readM, buildEffect_M, buildEffect_params]

/-- So it leaves the fields of the rows of the matrix. -/
theorem extract_buildEffect_matrixRow (s : State) (r offset length : Nat) :
    (buildEffect s).extract (matrixRow r) offset length = s.extract (matrixRow r) offset length :=
  State.extract_congr (buildEffect_params s) (buildEffect_cfgWds s) fun w _ _ => readM_buildEffect s r w

/-! ## The two phases together -/

/-- `PASS` that runs normally is the two phases (44_pass.md R147). -/
theorem exec_pass_of_ready {s : State} (h : s.PassReady) : exec .pass s = .next (passEffect s) := by
  have ⟨⟨hf, _⟩, _⟩ := h
  rw [exec_pass, command_of_none hf (firstCause_windowChecks_of_passReady h)]

/-- The touched words of the processed rows: the old word and the word of the table row that the old field selects
(43_eliminate.md R133, 44_pass.md R150). -/
theorem readM_passEffect {s : State} (hready : s.PassReady) {r w : Nat} (hr : s.Processed r) (hw : s.Touched w) :
    (passEffect s).readM r w =
      s.readM r w ^^^ (buildEffect s).readZ (s.extract (matrixRow r) s.x1.toNat s.x2.toNat) w := by
  have ⟨⟨_, _, hwds⟩, _⟩ := hready
  have hread := readM_elimEffect (passReady_buildEffect hready) (r := r)
    ((buildEffect_params s).symm ▸ hw.2.trans_le hwds)
  rw [if_pos ⟨processed_buildEffect.2 hr, touched_buildEffect.2 hw⟩, readM_buildEffect,
    extract_buildEffect_matrixRow, buildEffect_x1, buildEffect_x2] at hread
  exact hread

/-- The locations of the matrix that `PASS` leaves (44_pass.md R150). -/
theorem read_passEffect_other {s : State} (hready : s.PassReady) {a : Nat}
    (ha : ∀ r w, s.Processed r → s.Touched w → a ≠ r * s.params.wdsMax + w) :
    (passEffect s).M.read a = s.M.read a := by
  rw [← buildEffect_M s]
  refine read_elimEffect_other (passReady_buildEffect hready) fun r w hr hw => ?_
  rw [buildEffect_params]
  exact ha r w (processed_buildEffect.1 hr) (touched_buildEffect.1 hw)

/-- With independent pivot fields every processed row is left with a zero field (44_pass.md R150). -/
theorem extract_passEffect_eq_zero {s : State} (hlegal : s.params.Legal) (hwf : s.MemoriesWf)
    (hready : s.PassReady) (h : s.IndependentFields) {r : Nat} (hr : s.Processed r) :
    (passEffect s).extract (matrixRow r) s.x1.toNat s.x2.toNat = 0 := by
  have hzero := extract_elimEffect_eq_zero (s := buildEffect s) ((buildEffect_params s).symm ▸ hlegal)
    (hwf.buildEffect hlegal hready) (passReady_buildEffect hready) (fun c hc => ?_) (processed_buildEffect.2 hr)
  · rw [buildEffect_x1, buildEffect_x2] at hzero
    exact hzero
  · rw [buildEffect_x2] at hc
    rw [buildEffect_x1, buildEffect_x2, extract_buildEffect_tableRow hlegal hwf hready h hc]

/-! ## The obligations -/

/-- Settles O26: the tag that the build phase sets is the one that `ELIM` checks. -/
theorem passIsBuildThenElim : Obligations.PassIsBuildThenElim := by
  unfold Obligations.PassIsBuildThenElim
  intro s hlegal hready
  exact ⟨_, _, exec_build_of_ready hready, exec_elim_of_ready (elimReady_buildEffect hlegal hready),
    exec_pass_of_ready hready⟩

/-- Settles O27: the subset that a processed row selects is the one whose field is the row's old field, and its table
row holds that subset's rows; the columns of the window are the bits of the row's new field. -/
theorem passEliminatesTheWindow : Obligations.PassEliminatesTheWindow := by
  unfold Obligations.PassEliminatesTheWindow
  intro s hlegal hwf hready h tag
  have hfield := fieldOk_of_passReady hlegal hready
  have hS := pivotCount_le_sixteen hlegal hready
  refine ⟨_, exec_pass_of_ready hready, ?frame, fun r k hr hk => ?columns, fun r hr => ?combination,
    fun a => read_passEffect_other hready⟩
  case frame =>
    have hframe := passEffect_frame s
    rwa [validTblCnt_eq_ofNat (by omega)] at hframe
  case columns =>
    have hfield' : (passEffect s).FieldOk s.x1.toNat s.x2.toNat := by
      rw [passEffect_frame]
      exact hfield
    rw [State.column_eq_testBit_extract (hwf.passEffect hlegal hready) (matrixRow r) hfield' hk,
      extract_passEffect_eq_zero hlegal hwf hready h hr, Nat.zero_testBit, Bool.toNat_false]
  case combination =>
    obtain ⟨j, hj, hselect⟩ :=
      State.exists_subsetField_eq hlegal hready h (State.extract_lt (ref := matrixRow r) hfield)
    refine ⟨j, hj, hselect, fun w hw => ?_⟩
    rw [readM_passEffect hready hr hw, ← hselect, BitVec.toNat_xor,
      readZ_buildEffect_subsetField hlegal hready h hj hw]

/-- Settles O28: the table is the zero one, so whatever row a processed row selects is zero. -/
theorem passOnZeroPivotRowsKeepsTheMatrix : Obligations.PassOnZeroPivotRowsKeepsTheMatrix := by
  unfold Obligations.PassOnZeroPivotRowsKeepsTheMatrix
  intro s hlegal hwf hready hzero
  have hfield := fieldOk_of_passReady hlegal hready
  have htable : ∀ e w, e < 2 ^ s.x2.toNat → s.Touched w → (buildEffect s).readZ e w = 0 := fun e w he hw => by
    rw [readZ_buildEffect_of_touched hlegal hready he hw, State.builtTable_eq_zero fun i hi => hzero i w hi hw]
  have hkeep : passEffect s = buildEffect s := by
    refine elimEffect_eq_self (hwf.buildEffect hlegal hready) (passReady_buildEffect hready) fun r w _ hw => ?_
    rw [extract_buildEffect_matrixRow, buildEffect_x1, buildEffect_x2]
    exact htable _ w (State.extract_lt hfield) (touched_buildEffect.1 hw)
  refine ⟨_, exec_pass_of_ready hready, ?_, ?_⟩
  · rw [hkeep, buildEffect_M]
  · rwa [hkeep]

end Sys2Proof.Machine
end

section
/-! PROOFS. The matrix words that are not in use: two runs of a command from states that differ in those words only
stay side by side, and no command writes them (10_state.md R38). -/

namespace Sys2Proof.Machine

/-! ## States that agree on the words in use -/

/-- `t` differs from `s` in the matrix only, and not on rows below `m` and words below `wds`, where `wds` is the
number of words in use. -/
structure State.AgreeInUse (m wds : Nat) (s t : State) : Prop where
  /-- Nothing but the matrix differs. -/
  frame : ∃ M', t = { s with M := M' }
  /-- The words in use are those of the configuration. -/
  words : s.cfgWds.toNat = wds
  /-- The words in use read alike. -/
  rows : ∀ r w, r < m → w < wds → t.readM r w = s.readM r w

/-- The reference names a table row or a matrix row below `m`. -/
def RowRef.InUse (ref : RowRef) (m : Nat) : Prop := ref.table = true ∨ ref.idx < m

theorem matrixRow_inUse {r m : Nat} (h : r < m) : (matrixRow r).InUse m := .inr h

theorem tableRow_inUse (e m : Nat) : (tableRow e).InUse m := .inl rfl

/-- A valid reference names a row in use (30_encoding.md R77). -/
theorem inUse_of_namesRow {s : State} {v : Word} (h : s.NamesRow v) : (rowRef v).InUse s.cfgM.toNat := by
  have hvalid := (s.refValid_iff v).2 h
  rw [State.refValid, Bool.and_eq_true, decide_eq_true_eq, decide_eq_true_eq] at hvalid
  obtain ⟨-, hidx⟩ := hvalid
  split at hidx
  · next htable => exact .inl htable
  · exact .inr hidx

section

variable {m wds : Nat} {s t : State}

theorem State.AgreeInUse.readRow (h : s.AgreeInUse m wds t) {ref : RowRef} {w : Nat} (href : ref.InUse m)
    (hw : w < wds) : t.readRow ref w = s.readRow ref w := by
  unfold State.readRow
  split
  · obtain ⟨M', rfl⟩ := h.frame
    rfl
  · next htable => exact h.rows ref.idx w (href.resolve_left htable) hw

/-- The same write in both states. -/
theorem State.AgreeInUse.writeRow (h : s.AgreeInUse m wds t) (ref : RowRef) (w : Nat) (v : Word) :
    (s.writeRow ref w v).AgreeInUse m wds (t.writeRow ref w v) := by
  obtain ⟨⟨M', rfl⟩, hwords, hrows⟩ := h
  refine ⟨?frame, by rw [State.writeRow_cfgWds, hwords], fun r x hr hx => ?rows⟩
  case frame =>
    unfold State.writeRow
    split
    · exact ⟨M', rfl⟩
    · exact ⟨_, rfl⟩
  case rows =>
    unfold State.writeRow
    split
    · exact hrows r x hr hx
    · have hold := hrows r x hr hx
      simp only [State.readM, State.writeM_M, State.writeM_params, Memory.read_write] at hold ⊢
      rw [hold]

theorem State.AgreeInUse.writeZI (h : s.AgreeInUse m wds t) (j : Nat) (v : Word) :
    (s.writeZI j v).AgreeInUse m wds (t.writeZI j v) := by
  obtain ⟨⟨M', rfl⟩, hwords, hrows⟩ := h
  exact ⟨⟨M', rfl⟩, hwords, hrows⟩

theorem State.AgreeInUse.setTag (h : s.AgreeInUse m wds t) : s.setTag.AgreeInUse m wds t.setTag := by
  obtain ⟨⟨M', rfl⟩, hwords, hrows⟩ := h
  exact ⟨⟨M', rfl⟩, hwords, hrows⟩

/-- A field of a row in use reads words in use only (40_extract.md R95). -/
theorem State.AgreeInUse.extract (h : s.AgreeInUse m wds t) {ref : RowRef} (href : ref.InUse m)
    (offset length : Nat) : t.extract ref offset length = s.extract ref offset length := by
  have ⟨hframe, hwords, _⟩ := h
  obtain ⟨M', ht⟩ := hframe
  exact State.extract_congr (by rw [ht]) (by rw [ht]) fun w _ hw => h.readRow href (hwords ▸ hw)

/-- A loop whose turns keep two states side by side does. -/
theorem State.AgreeInUse.forRange {a b : Nat} {body body' : Nat → State → State} (h : s.AgreeInUse m wds t)
    (turn : ∀ i u v, a ≤ i → i < b → u.AgreeInUse m wds v → (body i u).AgreeInUse m wds (body' i v)) :
    (forRange a b body s).AgreeInUse m wds (forRange a b body' t) :=
  forRange_related (fun _ (u v : State) => u.AgreeInUse m wds v) h turn

theorem State.AgreeInUse.xorInto (h : s.AgreeInUse m wds t) (dest : RowRef) {left right : RowRef}
    (hleft : left.InUse m) (hright : right.InUse m) (k : Nat) {n : Nat} (hn : n ≤ wds) :
    (xorInto dest left right k n s).AgreeInUse m wds (xorInto dest left right k n t) :=
  h.forRange fun w u v _ hw huv => by
    rw [huv.readRow hleft (hw.trans_le hn), huv.readRow hright (hw.trans_le hn)]
    exact huv.writeRow dest w _

/-! ## The phases of `BUILD` and `ELIM` -/

theorem State.AgreeInUse.wds_eq (h : s.AgreeInUse m wds t) : t.wds = s.wds := by
  obtain ⟨⟨M', rfl⟩, -, -⟩ := h
  rfl

theorem State.AgreeInUse.readZI (h : s.AgreeInUse m wds t) (j : Nat) : t.readZI j = s.readZI j := by
  obtain ⟨⟨M', rfl⟩, -, -⟩ := h
  rfl

theorem State.AgreeInUse.zeroFill (h : s.AgreeInUse m wds t) (S k0 : Nat) :
    (zeroFill S k0 s).AgreeInUse m wds (zeroFill S k0 t) := by
  unfold Machine.zeroFill
  rw [h.wds_eq]
  exact h.forRange fun e u v _ _ huv => huv.forRange fun w u v _ _ huv => huv.writeRow (tableRow e) w 0

theorem State.AgreeInUse.buildSlot (h : s.AgreeInUse m wds t) {r : Nat} (hr : r < m) (vv ii k0 j : Nat) :
    (buildSlot r vv ii k0 j s).AgreeInUse m wds (buildSlot r vv ii k0 j t) := by
  simp only [Machine.buildSlot, h.readZI, h.wds_eq]
  exact (h.writeZI _ _).xorInto _ (tableRow_inUse _ m) (matrixRow_inUse hr) k0 h.words.le

theorem State.AgreeInUse.buildPivot (h : s.AgreeInUse m wds t) {s0 i : Nat} (hi : s0 + i < m) (S k0 : Nat) :
    (buildPivot s0 S k0 i s).AgreeInUse m wds (buildPivot s0 S k0 i t) := by
  unfold Machine.buildPivot
  rw [h.extract (matrixRow_inUse hi)]
  exact h.forRange fun j u v _ _ huv => huv.buildSlot hi _ _ _ j

/-- The build phase reads the pivot rows only, which are in use (42_buildtable.md R111). -/
theorem State.AgreeInUse.buildEffect (h : s.AgreeInUse m wds t) (hrows : s.x1.toNat + s.x2.toNat ≤ m) :
    (buildEffect s).AgreeInUse m wds (buildEffect t) := by
  have ⟨⟨_, ht⟩, _, _⟩ := h
  have hx1 : t.x1 = s.x1 := by rw [ht]
  have hx2 : t.x2 = s.x2 := by rw [ht]
  have hp : t.params = s.params := by rw [ht]
  simp only [Machine.buildEffect, State.pivotOffset, State.pivotCount, hx1, hx2, hp]
  refine State.AgreeInUse.setTag (State.AgreeInUse.forRange ((h.zeroFill _ _).writeZI 0 0) ?_)
  exact fun i u v _ hi huv => huv.buildPivot (by omega) _ _

theorem State.AgreeInUse.elimRow (h : s.AgreeInUse m wds t) {i : Nat} (hi : i < m) (s0 S k0 : Nat) :
    (elimRow s0 S k0 i s).AgreeInUse m wds (elimRow s0 S k0 i t) := by
  unfold Machine.elimRow
  rw [h.extract (matrixRow_inUse hi), h.wds_eq]
  exact h.xorInto _ (matrixRow_inUse hi) (tableRow_inUse _ m) k0 h.words.le

/-- The eliminate phase reads rows below `m` (43_eliminate.md R132). -/
theorem State.AgreeInUse.elimEffect (h : s.AgreeInUse m wds t) (hm : s.cfgM.toNat = m) :
    (elimEffect s).AgreeInUse m wds (elimEffect t) := by
  have ⟨⟨_, ht⟩, _, _⟩ := h
  have hx1 : t.x1 = s.x1 := by rw [ht]
  have hx2 : t.x2 = s.x2 := by rw [ht]
  have hp : t.params = s.params := by rw [ht]
  have hcfg : t.cfgM = s.cfgM := by rw [ht]
  simp only [Machine.elimEffect, State.pivotOffset, State.pivotCount, State.m, hx1, hx2, hp, hcfg]
  exact h.forRange fun i u v _ hi huv => huv.elimRow (hm ▸ hi) _ _ _

end

/-! ## Every command -/

/-- The effects of the commands keep states that agree on the words in use side by side. -/
theorem State.AgreeInUse.effectOf {i : Instr} {s t : State} (h : s.AgreeInUse s.cfgM.toNat s.cfgWds.toNat t)
    (hf : s.faulted = false) (hc : firstCause (cfgCheck s :: checksOf i s) = none) :
    (effectOf i s).AgreeInUse s.cfgM.toNat s.cfgWds.toNat (effectOf i t) := by
  cases i with
  | extract =>
    obtain ⟨-, hown⟩ := canRun_of_firstCause_eq_none (l := extractChecks s) hf hc
    rw [firstCause_extractChecks] at hown
    split_ifs at hown with href _
    have hfield := h.extract (inUse_of_namesRow href) s.x2.toNat s.x3.toNat
    obtain ⟨⟨M', rfl⟩, hwords, hrows⟩ := h
    exact ⟨⟨M', by simp only [Machine.effectOf, extractEffect, hfield]⟩, hwords, hrows⟩
  | xorrow =>
    obtain ⟨-, -, hleft, hright, hlength⟩ := xorrowReady_of_firstCause_eq_none hf hc
    have hxor := h.xorInto (rowRef s.x0) (inUse_of_namesRow hleft) (inUse_of_namesRow hright) s.x3.toNat
      hlength.le
    obtain ⟨⟨M', rfl⟩, -, -⟩ := h
    exact hxor
  | build =>
    obtain ⟨-, -, -, hrows⟩ := passReady_of_firstCause_eq_none hf hc
    exact h.buildEffect hrows
  | elim => exact h.elimEffect rfl
  | pass =>
    obtain ⟨-, -, -, hrows⟩ := passReady_of_firstCause_eq_none hf hc
    exact (h.buildEffect hrows).elimEffect (by rw [buildEffect_cfgM])

/-- The effects of the commands write no matrix word that is not in use (10_state.md R38). -/
theorem readM_effectOf_unused {i : Instr} {s : State} (hf : s.faulted = false)
    (hc : firstCause (cfgCheck s :: checksOf i s) = none) {r w : Nat} (hw : w < s.params.wdsMax)
    (hout : s.cfgM.toNat ≤ r ∨ s.cfgWds.toNat ≤ w) : (effectOf i s).readM r w = s.readM r w := by
  cases i with
  | extract => rfl
  | xorrow =>
    obtain ⟨⟨-, -, hwds⟩, hdest, -, -, hlength⟩ := xorrowReady_of_firstCause_eq_none hf hc
    obtain ⟨-, -, -, hread⟩ := xorInto_spec (rowRef s.x0) (rowRef s.x1) (rowRef s.x2) (k := s.x3.toNat)
      (n := s.x4.toNat) (s := s) (hlength ▸ hwds)
    refine (hread (matrixRow r) w hw).trans (if_neg fun ⟨href, _, hlt⟩ => ?_)
    have hr : r < s.cfgM.toNat := by
      have huse := inUse_of_namesRow hdest
      rw [← href] at huse
      exact huse.resolve_left Bool.false_ne_true
    omega
  | build => exact readM_buildEffect s r w
  | elim =>
    obtain ⟨hpass, -⟩ := elimReady_of_firstCause_eq_none hf hc
    exact (readM_elimEffect hpass hw).trans (if_neg (by omega))
  | pass =>
    have hready := passReady_of_firstCause_eq_none hf hc
    have hread := readM_elimEffect (passReady_buildEffect hready) (r := r) ((buildEffect_params s).symm ▸ hw)
    have hunused : ¬ ((buildEffect s).Processed r ∧ (buildEffect s).Touched w) := by
      rw [processed_buildEffect, touched_buildEffect]
      omega
    exact (hread.trans (if_neg hunused)).trans (readM_buildEffect s r w)

/-! ## The obligation -/

/-- Settles O42: the checks do not read the matrix, so both states are dropped, both raise the same cause, or both
take the effect, which keeps them side by side and writes no word that is not in use. -/
theorem unusedMatrixWordsStayOut : Obligations.UnusedMatrixWordsStayOut := by
  unfold Obligations.UnusedMatrixWordsStayOut
  intro i s M' hM
  have hstart : s.AgreeInUse s.cfgM.toNat s.cfgWds.toNat { s with M := M' } := ⟨⟨M', rfl⟩, rfl, hM⟩
  have hchecks : firstCause (cfgCheck { s with M := M' } :: checksOf i { s with M := M' }) =
      firstCause (cfgCheck s :: checksOf i s) := by
    cases i <;> rfl
  simp only [exec_eq_command]
  cases hf : s.faulted with
  | true =>
    exact ⟨_, _, command_of_faulted hf, command_of_faulted (s := { s with M := M' }) hf, rfl, hM,
      fun r w _ _ => ⟨rfl, rfl⟩⟩
  | false =>
    cases hc : firstCause (cfgCheck s :: checksOf i s) with
    | some cause =>
      exact ⟨_, _, command_of_cause hf hc, command_of_cause (s := { s with M := M' }) hf (hchecks.trans hc), rfl, hM,
        fun r w _ _ => ⟨rfl, rfl⟩⟩
    | none =>
      have hc' := hchecks.trans hc
      obtain ⟨⟨_, hframe⟩, -, hrows⟩ := hstart.effectOf hf hc
      refine ⟨_, _, command_of_none hf hc, command_of_none (s := { s with M := M' }) hf hc', ?_, hrows,
        fun r w hw hout => ⟨readM_effectOf_unused hf hc hw hout,
          readM_effectOf_unused (s := { s with M := M' }) hf hc' hw hout⟩⟩
      rw [hframe]

end Sys2Proof.Machine
end
